-- ==== Sys2Proof/Word.lean ====
section
/-! DEFINITION. The word types of the language-vm CORE (spec/00_scope.md R5, R7, R8). -/

namespace Sys2Proof

/-- A byte: unsigned 8 bits, R7. -/
abbrev Byte := BitVec 8

/-- A 32-bit word: a register's contents (XLEN = 32, read as signed through `toInt`), the remainder register
(REMW = 32, read as unsigned through `toNat`), or a program-counter value (PCW = 32, unsigned), R5. -/
abbrev Word := BitVec 32

/-- LOAD's immediate, unsigned 16 bits (IMMW), R5 and R42. -/
abbrev Imm16 := BitVec 16

/-- The index of a general register, 0..31 (NREGS = 32), R5 and R11. -/
abbrev Reg := Fin 32

end Sys2Proof
end

