-- ==== Sys2Proof/Config.lean ====
section
/-! DEFINITION. What one implementation fixes and the spec leaves open: the buffer's capacity (spec/00_scope.md R5,
spec/20_memory.md R27). The other open parameter of R5, the opcode map, is the table `Sys2Proof.opmap` of Decode.lean. -/

namespace Sys2Proof.Config

/-- An uninterpreted 32-bit value from which `bufCap` is made: nothing can be proved about which value it is. -/
opaque bufCapBits : Word

/-- `BUF_CAP`, the capacity of the byte-code buffer in bytes: any one value with 1 <= BUF_CAP <= 2^32 - 1 (R27).
Log entry 12. -/
def bufCap : Nat := if bufCapBits.toNat = 0 then 1 else bufCapBits.toNat

end Sys2Proof.Config
end

