-- ==== Sys2Proof/Syntax.lean ====
section
/-! DEFINITION. The instructions of the language-vm ISA as syntax (spec/00_scope.md R2, spec/30_encoding.md R40). -/

namespace Sys2Proof

/-- The 17 opcode variants, R2: sixteen mapped ones and the catch-all `igl`. -/
inductive Opcode where
  | hlt | load | add | sub | mul | div | jmp | jmpf | jmpb
  | eq | neq | gt | lt | gtq | ltq | jeq | igl
  deriving DecidableEq, Repr

/-- An instruction with its operands in fetch order. A reg8 operand is the byte as it stands in the stream, 0..255
(R41): a byte 32..255 is no register, `Instr.wf` refuses it and executing it raises `regIndexOutOfRange`.
Pad bytes (R46) and the value of an illegal opcode byte (R45) carry no meaning and are not kept (log entry 14). -/
inductive Instr where
  /-- HLT, format Z, R82. -/
  | hlt
  /-- LOAD rd, imm16, format RI, R63. -/
  | load (rd : Byte) (imm : Imm16)
  /-- ADD rs1, rs2, rd, format RRR, R65. -/
  | add (rs1 rs2 rd : Byte)
  /-- SUB rs1, rs2, rd, format RRR, R66. -/
  | sub (rs1 rs2 rd : Byte)
  /-- MUL rs1, rs2, rd, format RRR, R67. -/
  | mul (rs1 rs2 rd : Byte)
  /-- DIV rs1, rs2, rd, format RRR, R68. -/
  | div (rs1 rs2 rd : Byte)
  /-- JMP rs1, format R, R71. -/
  | jmp (rs1 : Byte)
  /-- JMPF rs1, format R, R72. -/
  | jmpf (rs1 : Byte)
  /-- JMPB rs1, format R, R73. -/
  | jmpb (rs1 : Byte)
  /-- EQ rs1, rs2, format RR, R75. -/
  | eq (rs1 rs2 : Byte)
  /-- NEQ rs1, rs2, format RR, R76. -/
  | neq (rs1 rs2 : Byte)
  /-- GT rs1, rs2, format RR, R77. -/
  | gt (rs1 rs2 : Byte)
  /-- LT rs1, rs2, format RR, R78. -/
  | lt (rs1 rs2 : Byte)
  /-- GTQ rs1, rs2, format RR, R79. -/
  | gtq (rs1 rs2 : Byte)
  /-- LTQ rs1, rs2, format RR, R80. -/
  | ltq (rs1 rs2 : Byte)
  /-- JEQ rs1, format R, R81. -/
  | jeq (rs1 : Byte)
  /-- IGL, format Z, R83: what any opcode byte 16..255 decodes to. -/
  | igl
  deriving DecidableEq, Repr

end Sys2Proof
end

