-- ==== Sys2Proof/WellFormed.lean ====
section
/-! DEFINITION. Well-formed instructions: every byte used as a register names one (spec/30_encoding.md R41, R46, R50). -/

namespace Sys2Proof

/-- A reg8 byte names a register when it is 0..31, R41. -/
def isRegByte (b : Byte) : Bool := b.toNat < 32

/-- Every register field of the instruction names a register. "No other operand value is invalid", R46. -/
def Instr.wf : Instr → Bool
  | .hlt => true
  | .load rd _ => isRegByte rd
  | .add a b d => isRegByte a && isRegByte b && isRegByte d
  | .sub a b d => isRegByte a && isRegByte b && isRegByte d
  | .mul a b d => isRegByte a && isRegByte b && isRegByte d
  | .div a b d => isRegByte a && isRegByte b && isRegByte d
  | .jmp t => isRegByte t
  | .jmpf t => isRegByte t
  | .jmpb t => isRegByte t
  | .eq a b => isRegByte a && isRegByte b
  | .neq a b => isRegByte a && isRegByte b
  | .gt a b => isRegByte a && isRegByte b
  | .lt a b => isRegByte a && isRegByte b
  | .gtq a b => isRegByte a && isRegByte b
  | .ltq a b => isRegByte a && isRegByte b
  | .jeq t => isRegByte t
  | .igl => true

end Sys2Proof
end

