-- ==== Sys2Proof/Decode.lean ====
section
/-! DEFINITION. Decoding and encoding (spec/30_encoding.md R39 to R50), and the opcode map as one replaceable table. -/

namespace Sys2Proof

/-- The opcode map of R43: the entry at position b is the mapped opcode of byte b, for b in 0..15. The values at 0, 1,
5 and 9 are sourced, the other twelve are the spec's interpolation (decision D1, log entry 6): UNVERIFIED. -/
def opmap : List Opcode :=
  [.hlt, .load, .add, .sub, .mul, .div, .jmp, .jmpf, .jmpb, .eq, .neq, .gt, .lt, .gtq, .ltq, .jeq]

/-- What D1 asks of any opcode map: sixteen different mapped opcodes, with HLT, LOAD, DIV and EQ at 0, 1, 5 and 9. -/
def opmapValid (m : List Opcode) : Bool :=
  m.length == 16 && decide m.Nodup && !m.contains .igl &&
    m[0]? == some .hlt && m[1]? == some .load && m[5]? == some .div && m[9]? == some .eq

/-- R44: a total function from bytes to the 17 variants, under a given opcode map. -/
def decodeOpcodeWith (m : List Opcode) (b : Byte) : Opcode := (m[b.toNat]?).getD .igl

/-- R44 under the map of R43. -/
def decodeOpcode (b : Byte) : Opcode := decodeOpcodeWith opmap b

/-- R40: which operand each of the bytes B1, B2, B3 is, per opcode. The immediate is big-endian (R42, R29). -/
def assemble (op : Opcode) (b1 b2 b3 : Byte) : Instr :=
  match op with
  | .hlt => .hlt
  | .load => .load b1 (b2 ++ b3)
  | .add => .add b1 b2 b3
  | .sub => .sub b1 b2 b3
  | .mul => .mul b1 b2 b3
  | .div => .div b1 b2 b3
  | .jmp => .jmp b1
  | .jmpf => .jmpf b1
  | .jmpb => .jmpb b1
  | .eq => .eq b1 b2
  | .neq => .neq b1 b2
  | .gt => .gt b1 b2
  | .lt => .lt b1 b2
  | .gtq => .gtq b1 b2
  | .ltq => .ltq b1 b2
  | .jeq => .jeq b1
  | .igl => .igl

/-- The instruction that four bytes stand for: only B0 selects it (R44). -/
def decode4 (b0 b1 b2 b3 : Byte) : Instr := assemble (decodeOpcode b0) b1 b2 b3

/-- The decoder's answer on a byte stream. -/
inductive Decoded where
  /-- An instruction and the rest of the stream. -/
  | ok (i : Instr) (rest : List Byte)
  /-- Fewer than ILEN = 4 bytes are left (R39), namely `got`. -/
  | truncated (got : Nat)
  deriving DecidableEq, Repr

/-- Decode the first 4-byte instruction of a stream under a given opcode map. -/
def decodeWith (m : List Opcode) : List Byte → Decoded
  | b0 :: b1 :: b2 :: b3 :: rest => .ok (assemble (decodeOpcodeWith m b0) b1 b2 b3) rest
  | bs => .truncated bs.length

/-- The decoder: total on any bytes, and it refuses by name only a stream of fewer than four. -/
def decode (bs : List Byte) : Decoded := decodeWith opmap bs

/-- The opcode an instruction is encoded under. -/
def Instr.opcode : Instr → Opcode
  | .hlt => .hlt
  | .load _ _ => .load
  | .add _ _ _ => .add
  | .sub _ _ _ => .sub
  | .mul _ _ _ => .mul
  | .div _ _ _ => .div
  | .jmp _ => .jmp
  | .jmpf _ => .jmpf
  | .jmpb _ => .jmpb
  | .eq _ _ => .eq
  | .neq _ _ => .neq
  | .gt _ _ => .gt
  | .lt _ _ => .lt
  | .gtq _ _ => .gtq
  | .ltq _ _ => .ltq
  | .jeq _ => .jeq
  | .igl => .igl

/-- `op(M)` of R50 under a given opcode map: the map's position, and 255 (IGL_BYTE) for IGL. -/
def opcodeByteWith (m : List Opcode) (op : Opcode) : Byte :=
  if op = .igl then 255 else BitVec.ofNat 8 (m.idxOf op)

/-- The bytes B1, B2, B3 of the canonical encoding: R40's fields, with pads 0 (R46, R50). -/
def operandBytes : Instr → List Byte
  | .hlt => [0, 0, 0]
  | .load rd imm => [rd, BitVec.ofNat 8 (imm.toNat / 256), BitVec.ofNat 8 (imm.toNat % 256)]
  | .add a b d => [a, b, d]
  | .sub a b d => [a, b, d]
  | .mul a b d => [a, b, d]
  | .div a b d => [a, b, d]
  | .jmp t => [t, 0, 0]
  | .jmpf t => [t, 0, 0]
  | .jmpb t => [t, 0, 0]
  | .eq a b => [a, b, 0]
  | .neq a b => [a, b, 0]
  | .gt a b => [a, b, 0]
  | .lt a b => [a, b, 0]
  | .gtq a b => [a, b, 0]
  | .ltq a b => [a, b, 0]
  | .jeq t => [t, 0, 0]
  | .igl => [0, 0, 0]

/-- The encoder of R50 under a given opcode map. -/
def encodeWith (m : List Opcode) (i : Instr) : List Byte := opcodeByteWith m i.opcode :: operandBytes i

/-- The encoder of R50: the canonical four bytes of an instruction. -/
def encode (i : Instr) : List Byte := encodeWith opmap i

/-- The four bytes of a word view `W` of R7, B0 first: B0 = W[31:24], …, B3 = W[7:0]. -/
def wordBytes (w : Nat) : List Byte :=
  [BitVec.ofNat 8 (w / 2 ^ 24), BitVec.ofNat 8 (w / 2 ^ 16), BitVec.ofNat 8 (w / 2 ^ 8), BitVec.ofNat 8 w]

/-- The instruction read from a table word: spec/opcode_table.json numbers the bits of the word view `W` of R7, so its
bit 31 is the most significant bit of the first byte. Bits from nbits up are taken as 0. -/
def decodeTableWord (nbits w : Nat) : Option Instr :=
  match decode (wordBytes (w % 2 ^ nbits)) with
  | .ok i _ => some i
  | .truncated _ => none

end Sys2Proof
end

