-- ==== Sys2Proof/Machine/State.lean ====
section
/-! DEFINITION. The state of the engine, exactly the record of spec/10_state.md R10, as plain data. -/

namespace Sys2Proof.Machine

/-- The byte-code buffer (R15, R24, R25): `len` bytes at offsets 0..len-1. `cells` lists the offsets whose byte is
not 0, in rising order; an offset below `len` that is not listed holds 0, and an offset from `len` up is not memory
(R32). So every byte sequence has exactly one such record (`Memory.wf`). Log entry 4. -/
structure Memory where
  len   : Nat
  cells : List Host.Cell
  deriving DecidableEq, Repr

/-- The seven fault kinds of spec/60_exceptions.md R86. -/
inductive FaultKind where
  /-- R87: an operand or pad byte is fetched at an offset >= len. -/
  | fetchOutOfBounds
  /-- R88: a byte fetched as a register index is 32..255. -/
  | regIndexOutOfRange
  /-- R89: DIV by a register that holds 0. -/
  | divideByZero
  /-- R90: DIV of INT_MIN by -1. -/
  | divideOverflow
  /-- R91: a jump operand register holds a negative value. -/
  | jumpNegative
  /-- R92: a JMPB distance exceeds pc0 + 2. -/
  | pcUnderflow
  /-- R93: a JMPF target does not fit the program counter. -/
  | pcOverflow
  deriving DecidableEq, Repr

/-- What the latch records, R18 and R86: the kind, its `info`, and the offset of the faulting instruction. -/
structure FaultLatch where
  kind : FaultKind
  info : Nat
  pc0  : Word
  deriving DecidableEq, Repr

/-- The run status of R19. -/
inductive RunStatus where
  | idle | running | halted
  deriving DecidableEq, Repr

/-- The engine's state, R10: "There is no other state". -/
structure State where
  /-- The register file, R11: 32 words, read as signed 32-bit integers. -/
  x     : Vector Word 32
  /-- The program counter, R13: unsigned, PCW = 32 bits. -/
  pc    : Word
  /-- The byte-code buffer, R15. -/
  buf   : Memory
  /-- The remainder register, R16: unsigned 32 bits. -/
  rem   : Word
  /-- The comparison flag, R17. -/
  flag  : Bool
  /-- The fault latch, R18. -/
  fault : Option FaultLatch
  /-- The run status, R19. -/
  rs    : RunStatus
  deriving DecidableEq, Repr

/-- Why a step stops with a fault. The engine's own faults are no such stop: raising one is a next state in which the
latch is set (R94). -/
inductive Fault where
  /-- Raised by `step` alone, in a state whose latch is already set: the step is refused, the state stays as it is,
  and the answer is the latched fault again (spec/40_step_cycle.md R53, R56). Safe. Log entry 1. -/
  | latched (kind : FaultKind) (info : Nat)
  deriving DecidableEq, Repr

/-- Why the model gives an instruction no meaning. -/
inductive Refusal where
  /-- An arm of `exec` whose instruction has no meaning yet: no arm of this model. Safe. -/
  | notModelled (mnemonic : String)
  deriving DecidableEq, Repr

/-- The state right after reset, which is `create`: R20, R52, R101. -/
def State.reset : State where
  x     := Vector.replicate 32 0
  pc    := 0
  buf   := { len := 0, cells := [] }
  rem   := 0
  flag  := false
  fault := none
  rs    := .idle

/-- What a step or a meaning answers. -/
abbrev Result := Host.Outcome State Fault Refusal

end Sys2Proof.Machine
end

