-- ==== Sys2Proof/Machine/Ops.lean ====
section
/-! DEFINITION. The named operations over memory, registers and the other fields; the endings of a step; taking a
fault, and the only way out of one. -/

namespace Sys2Proof.Machine

/-! ### Integers and words (spec/00_scope.md R8) -/

/-- `wrap32(n)`: the 32-bit two's-complement word congruent to n modulo 2^32. -/
def wrap32 (n : Int) : Word := BitVec.ofInt 32 n

/-- `bits32(v)`: the unsigned reading of the same 32 bits. -/
def bits32 (v : Int) : Nat := (v % 2 ^ 32).toNat

/-- `zext_32(v)`: the word with the same numeric value. -/
def zext32 (v : Imm16) : Word := v.zeroExtend 32

/-- `tdiv(a, b)`: the quotient truncated toward zero. -/
def tdiv (a b : Int) : Int := Int.tdiv a b

/-- `trem(a, b)`: the remainder of that quotient, a - tdiv(a, b) * b. -/
def trem (a b : Int) : Int := a - tdiv a b * b

/-- INT_MIN. -/
def intMin : Int := -2147483648

/-! ### The byte-code buffer (spec/20_memory.md) -/

/-- The byte a list of cells gives an offset, 0 where it lists none. -/
def lookupCell : List Host.Cell → Nat → Byte
  | [], _ => 0
  | (a, b) :: rest, k => if a = k then b else lookupCell rest k

/-- Put a byte at an offset of a rising list of cells, keeping the canonical form: a 0 is not listed. -/
def putCell : List Host.Cell → Nat → Byte → List Host.Cell
  | [], k, b => if b = 0 then [] else [(k, b)]
  | (a, c) :: rest, k, b =>
    if k < a then (if b = 0 then (a, c) :: rest else (k, b) :: (a, c) :: rest)
    else if k = a then (if b = 0 then rest else (k, b) :: rest)
    else (a, c) :: putCell rest k b

/-- The cells' offsets rise strictly from `lo` on, stay below `len`, and no cell holds 0. -/
def cellsWf (lo len : Nat) : List Host.Cell → Bool
  | [] => true
  | (a, b) :: rest => decide (lo ≤ a) && decide (a < len) && decide (b ≠ 0) && cellsWf (a + 1) len rest

/-- The canonical form of a buffer: equal byte sequences are equal records. -/
def Memory.wf (m : Memory) : Bool := cellsWf 0 m.len m.cells

/-- `MemRead(k, 1)` of R9, defined only for k < len; an offset from len up is not memory (R32). -/
def Memory.read (m : Memory) (k : Nat) : Option Byte :=
  if k < m.len then some (lookupCell m.cells k) else none

/-- `buf ++ [b]`: the new byte stands at the old len (R26). -/
def Memory.append (m : Memory) (b : Byte) : Memory :=
  { len := m.len + 1, cells := putCell m.cells m.len b }

/-- Lay bytes at offsets k, k+1, …, growing the buffer where it is shorter. No operation of the hardware does this:
it serves `State.withFetchWord` and test states only (log entry 18). -/
def Memory.place (m : Memory) : Nat → List Byte → Memory
  | _, [] => m
  | k, b :: bs => Memory.place { len := max m.len (k + 1), cells := putCell m.cells k b } (k + 1) bs

/-- The buffer as the byte sequence it stands for. -/
def Memory.bytes (m : Memory) : List Byte := (List.range m.len).map (lookupCell m.cells)

/-! ### Registers and the other fields -/

/-- `x[r]`, as the word it holds. -/
def State.reg (s : State) (r : Reg) : Word := s.x[r]

/-- `x[r]`, as the signed integer R8 reads it as. -/
def State.ival (s : State) (r : Reg) : Int := (s.reg r).toInt

/-- `x[r] <- v`. Every register is an ordinary one, r0 too (R11). -/
def State.setReg (s : State) (r : Reg) (v : Word) : State := { s with x := s.x.set r v }

/-- `pc <- t`. -/
def State.setPc (s : State) (t : Word) : State := { s with pc := t }

/-- `pc <- n` for an offset n that fits PCW bits. -/
def State.setPcNat (s : State) (n : Nat) : State := s.setPc (BitVec.ofNat 32 n)

/-- `rem <- v`. -/
def State.setRem (s : State) (v : Word) : State := { s with rem := v }

/-- `flag <- b`. -/
def State.setFlag (s : State) (b : Bool) : State := { s with flag := b }

/-- `fault <- f`. -/
def State.setFault (s : State) (f : Option FaultLatch) : State := { s with fault := f }

/-- `rs <- r`. -/
def State.setRs (s : State) (r : RunStatus) : State := { s with rs := r }

/-- `buf <- m`. -/
def State.setBuf (s : State) (m : Memory) : State := { s with buf := m }

/-! ### The endings of a step (R9) and taking a fault (spec/60_exceptions.md R94) -/

/-- `continue`: the step ends with result `Continued`, `rs <- Running`. -/
def proceed (t : State) : Result := .next (t.setRs .running)

/-- `halt(reason)`: the step ends with result `Halted(reason)`, `rs <- Halted`. The reason is no state: `haltReason`
of HostOps.lean gives it (log entry 3). -/
def halt (t : State) : Result := .next (t.setRs .halted)

/-- `raise K(info)`, with s the state at the START of the step: x, pc, rem and flag keep the values they have there,
the latch records (K, info, pc0), and `rs <- Halted`. The step ends with result `Fault(K, info)`. This is the one
operation by which every fault is taken. -/
def raise (s : State) (kind : FaultKind) (info : Nat) : Result :=
  .next ((s.setFault (some { kind := kind, info := info, pc0 := s.pc })).setRs .halted)

/-- `create` (spec/40_step_cycle.md R52), which is also reset (spec/70_reset_and_hazards.md R102). No instruction
returns from a fault: this is the only operation that clears the latch (R98), and it discards all state. -/
def create (_ : State) : State := State.reset

/-! ### The tests before a fetch (spec/40_step_cycle.md R53) and the fetch of an instruction's bytes (R54) -/

/-- R56: a step while a fault is latched is refused with the latched fault and changes nothing. -/
def refuseLatched (f : FaultLatch) : Result := .fault (.latched f.kind f.info)

/-- R53: pc0 >= len. -/
def atBufferEnd (s : State) : Bool := decide (s.buf.len ≤ s.pc.toNat)

/-- R53: at the buffer end nothing is fetched and only rs is written. -/
def haltBufferEnd (s : State) : Result := halt s

/-- The byte at offset pc0 + j as the decoder sees it. Where the buffer does not reach so far the lane carries 0, and
no meaning uses it: the bounds check of that byte's fetch comes before any use (R95). Log entry 5. -/
def lane (s : State) (j : Nat) : Byte := (s.buf.read (s.pc.toNat + j)).getD 0

/-- The instruction that stands at pc0 (R54), decoded once from its four byte lanes. -/
def fetchInstr (s : State) : Instr := decode4 (lane s 0) (lane s 1) (lane s 2) (lane s 3)

end Sys2Proof.Machine
end

