-- ==== Sys2Proof/Machine/Operands.lean ====
section
/-! DEFINITION. Every operand form of the ISA: the fetch primitives of spec/00_scope.md R9 with their checks in fetch
order (spec/60_exceptions.md R95), and the jump operand (spec/43_jumps.md R70).

In all of them s is the state at the START of the step, so pc0 = s.pc, and j is the operand byte's place in the
instruction: it is fetched at offset pc0 + j. -/

namespace Sys2Proof.Machine

/-- `Fetch8` of an operand or pad byte, as a check: the byte must stand inside the buffer (R87). -/
def fetchByte (s : State) (j : Nat) (go : Result) : Result :=
  if s.buf.len ≤ s.pc.toNat + j then raise s .fetchOutOfBounds (s.pc.toNat + j) else go

/-- `FetchReg`: the byte must stand inside the buffer, and then name a register (R41, R88). It is not masked. -/
def fetchReg (s : State) (j : Nat) (b : Byte) (go : Reg → Result) : Result :=
  fetchByte s j (if h : b.toNat < 32 then go ⟨b.toNat, h⟩ else raise s .regIndexOutOfRange b.toNat)

/-- `FetchPad`: fetched, so it must exist, and discarded unexamined (R46). -/
def fetchPad (s : State) (j : Nat) (go : Result) : Result := fetchByte s j go

/-- `Fetch16`: two bytes, high one first; any value is legal (R29, R42). -/
def fetch16 (s : State) (j : Nat) (go : Result) : Result := fetchByte s j (fetchByte s (j + 1) go)

/-- `FetchRRR` (spec/42_arithmetic.md R64): two source indices, then the destination index. -/
def fetchRRR (s : State) (a b d : Byte) (go : Reg → Reg → Reg → Result) : Result :=
  fetchReg s 1 a fun ra => fetchReg s 2 b fun rb => fetchReg s 3 d fun rd => go ra rb rd

/-- The operand phase of a comparison (spec/44_compare.md R74): two indices, then a pad. -/
def fetchRRPad (s : State) (a b : Byte) (go : Reg → Reg → Result) : Result :=
  fetchReg s 1 a fun ra => fetchReg s 2 b fun rb => fetchPad s 3 (go ra rb)

/-- The jump operand: the register's value, which must not be negative (R70, R91). -/
def jumpOperand (s : State) (r : Reg) (go : Nat → Result) : Result :=
  if s.ival r < 0 then raise s .jumpNegative (bits32 (s.ival r)) else go (s.ival r).toNat

end Sys2Proof.Machine
end

