-- ==== Sys2Proof/Machine/Arithmetic.lean ====
section
/-! DEFINITION. ADD, SUB, MUL, DIV (spec/42_arithmetic.md). -/

namespace Sys2Proof.Machine

/-- The common shape of ADD, SUB and MUL: both sources are read before the write (R64), and the exact result of the
signed operands is reduced modulo 2^32 (R69; the spec's decision D8, log entry 7). -/
def arith (op : Int → Int → Int) (a b d : Byte) (s : State) : Result :=
  fetchRRR s a b d fun ra rb rd =>
    proceed ((s.setReg rd (wrap32 (op (s.ival ra) (s.ival rb)))).setPcNat (s.pc.toNat + 4))

/-- R65. -/
def execAdd (a b d : Byte) (s : State) : Result := arith (fun va vb => va + vb) a b d s

/-- R66: the first operand is the minuend. -/
def execSub (a b d : Byte) (s : State) : Result := arith (fun va vb => va - vb) a b d s

/-- R67. -/
def execMul (a b d : Byte) (s : State) : Result := arith (fun va vb => va * vb) a b d s

/-- R68: the two divide faults in pseudocode order, then the truncated quotient into the destination and bits32 of the
truncated remainder into rem (the spec's decision D9, log entry 8). -/
def execDiv (a b d : Byte) (s : State) : Result :=
  fetchRRR s a b d fun ra rb rd =>
    if s.ival rb = 0 then raise s .divideByZero rb.val
    else if s.ival ra = intMin ∧ s.ival rb = -1 then raise s .divideOverflow rb.val
    else
      proceed (((s.setReg rd (wrap32 (tdiv (s.ival ra) (s.ival rb)))).setRem
        (BitVec.ofNat 32 (bits32 (trem (s.ival ra) (s.ival rb))))).setPcNat (s.pc.toNat + 4))

end Sys2Proof.Machine
end

