-- ==== Sys2Proof/Machine/Flags.lean ====
section
/-! DEFINITION. The comparison flag: its six relations and the one operation that writes it (spec/44_compare.md R74).
There are no other condition codes (spec/10_state.md R17). -/

namespace Sys2Proof.Machine

/-- R75. -/
def relEq (a b : Int) : Bool := decide (a = b)

/-- R76. -/
def relNeq (a b : Int) : Bool := decide (a ≠ b)

/-- R77. -/
def relGt (a b : Int) : Bool := decide (a > b)

/-- R78. -/
def relLt (a b : Int) : Bool := decide (a < b)

/-- R79. -/
def relGtq (a b : Int) : Bool := decide (a ≥ b)

/-- R80. -/
def relLtq (a b : Int) : Bool := decide (a ≤ b)

/-- `exec_CMP(REL)` of R74: the flag is written with the signed comparison, and nothing else but pc. -/
def compareRegs (rel : Int → Int → Bool) (a b : Byte) (s : State) : Result :=
  fetchRRPad s a b fun ra rb =>
    proceed ((s.setFlag (rel (s.ival ra) (s.ival rb))).setPcNat (s.pc.toNat + 4))

end Sys2Proof.Machine
end

