-- ==== Sys2Proof/Machine/Compare.lean ====
section
/-! DEFINITION. EQ, NEQ, GT, LT, GTQ, LTQ (spec/44_compare.md). -/

namespace Sys2Proof.Machine

/-- R75. -/
def execEq (a b : Byte) (s : State) : Result := compareRegs relEq a b s

/-- R76. -/
def execNeq (a b : Byte) (s : State) : Result := compareRegs relNeq a b s

/-- R77. -/
def execGt (a b : Byte) (s : State) : Result := compareRegs relGt a b s

/-- R78. -/
def execLt (a b : Byte) (s : State) : Result := compareRegs relLt a b s

/-- R79. -/
def execGtq (a b : Byte) (s : State) : Result := compareRegs relGtq a b s

/-- R80. -/
def execLtq (a b : Byte) (s : State) : Result := compareRegs relLtq a b s

end Sys2Proof.Machine
end

