-- ==== Sys2Proof/Machine/Halt.lean ====
section
/-! DEFINITION. HLT and IGL (spec/46_halt.md). -/

namespace Sys2Proof.Machine

/-- R82: halt, with pc = pc0 + 1 because the opcode byte was fetched (90_conflicts.md C6, log entry 10). -/
def execHlt (s : State) : Result := halt (s.setPcNat (s.pc.toNat + 1))

/-- R83: an illegal opcode "halts execution cleanly", as HLT does; it is no fault. -/
def execIgl (s : State) : Result := halt (s.setPcNat (s.pc.toNat + 1))

end Sys2Proof.Machine
end

