-- ==== Sys2Proof/Machine/Jumps.lean ====
section
/-! DEFINITION. JMP, JMPF, JMPB (spec/43_jumps.md) and JEQ (spec/45_jeq.md). -/

namespace Sys2Proof.Machine

/-- R71: to the absolute offset the register holds. The pads are not fetched. -/
def execJmp (t : Byte) (s : State) : Result :=
  fetchReg s 1 t fun r => jumpOperand s r fun v => proceed (s.setPcNat v)

/-- R72: forward from pc0 + 2 (log entry 9); a target that does not fit PCW bits faults. -/
def execJmpf (t : Byte) (s : State) : Result :=
  fetchReg s 1 t fun r => jumpOperand s r fun v =>
    if 2 ^ 32 ≤ s.pc.toNat + 2 + v then raise s .pcOverflow (bits32 v)
    else proceed (s.setPcNat (s.pc.toNat + 2 + v))

/-- R73: backward from pc0 + 2 (log entry 9); a distance beyond offset 0 faults. -/
def execJmpb (t : Byte) (s : State) : Result :=
  fetchReg s 1 t fun r => jumpOperand s r fun v =>
    if s.pc.toNat + 2 < v then raise s .pcUnderflow (bits32 v)
    else proceed (s.setPcNat (s.pc.toNat + 2 - v))

/-- R81: the register byte is fetched and checked in both cases; taken, the pads are not fetched; not taken, both are
and the register's value is not looked at. The flag keeps its value. -/
def execJeq (t : Byte) (s : State) : Result :=
  fetchReg s 1 t fun r =>
    if s.flag then jumpOperand s r fun v => proceed (s.setPcNat v)
    else fetchPad s 2 (fetchPad s 3 (proceed (s.setPcNat (s.pc.toNat + 4))))

end Sys2Proof.Machine
end

