-- ==== Sys2Proof/Machine/Load.lean ====
section
/-! DEFINITION. LOAD (spec/41_load.md). -/

namespace Sys2Proof.Machine

/-- R63: `x[rd] <- zext_32(imm16)`. -/
def execLoad (rd : Byte) (imm : Imm16) (s : State) : Result :=
  fetchReg s 1 rd fun d => fetch16 s 2 (proceed ((s.setReg d (zext32 imm)).setPcNat (s.pc.toNat + 4)))

end Sys2Proof.Machine
end

