-- ==== Sys2Proof/Machine/Dispatch.lean ====
section
/-! DEFINITION. The dispatch of spec/40_step_cycle.md R54: one arm per instruction. The state given to a meaning is the
one at the start of the step, so pc is the offset of the opcode byte. -/

namespace Sys2Proof.Machine

def exec (i : Instr) (s : State) : Host.Outcome State Fault Refusal :=
  match i with
  | .hlt => Sys2Proof.Machine.execHlt s
  | .load rd imm => Sys2Proof.Machine.execLoad rd imm s
  | .add a b d => Sys2Proof.Machine.execAdd a b d s
  | .sub a b d => Sys2Proof.Machine.execSub a b d s
  | .mul a b d => Sys2Proof.Machine.execMul a b d s
  | .div a b d => Sys2Proof.Machine.execDiv a b d s
  | .jmp t => Sys2Proof.Machine.execJmp t s
  | .jmpf t => Sys2Proof.Machine.execJmpf t s
  | .jmpb t => Sys2Proof.Machine.execJmpb t s
  | .eq a b => Sys2Proof.Machine.execEq a b s
  | .neq a b => Sys2Proof.Machine.execNeq a b s
  | .gt a b => Sys2Proof.Machine.execGt a b s
  | .lt a b => Sys2Proof.Machine.execLt a b s
  | .gtq a b => Sys2Proof.Machine.execGtq a b s
  | .ltq a b => Sys2Proof.Machine.execLtq a b s
  | .jeq t => Sys2Proof.Machine.execJeq t s
  | .igl => Sys2Proof.Machine.execIgl s

end Sys2Proof.Machine
end

