-- ==== Sys2Proof/Machine/Step.lean ====
section
/-! DEFINITION. One step of the engine (spec/40_step_cycle.md R53, R54), and a state whose next step runs a given word. -/

namespace Sys2Proof.Machine

/-- `step()`: the latch test, the buffer-end test, then fetch, decode and dispatch of one instruction. What `step()`
returns to the host beside the state is `hostStep` of HostOps.lean. -/
def step (s : State) : Host.Outcome State Fault Refusal :=
  match s.fault with
  | some f => refuseLatched f
  | none => if atBufferEnd s then haltBufferEnd s else exec (fetchInstr s) s

/-- The state in which the bytes of a table word (bits from nbits up 0) stand at pc and no fault is latched, so that the
next step runs that instruction. Nothing else changes. Log entry 18. -/
def State.withFetchWord (s : State) (nbits w : Nat) : State :=
  (s.setBuf (s.buf.place s.pc.toNat (wordBytes (w % 2 ^ nbits)))).setFault none

end Sys2Proof.Machine
end

