-- ==== Sys2Proof/Machine/HostOps.lean ====
section
/-! DEFINITION. The host's operations on the engine and what they answer: `create` (in Ops.lean), `append_byte`,
`step` with its StepResult, `run_to_halt`, the read accessors (spec/40_step_cycle.md R51 to R62, spec/20_memory.md R26,
spec/10_state.md R21). -/

namespace Sys2Proof.Machine

/-- The three halt reasons of spec/60_exceptions.md R85. -/
inductive HaltReason where
  | bufferEnd | hlt | igl
  deriving DecidableEq, Repr

/-- The StepResult of R51. -/
inductive StepResult where
  | continued
  | halted (reason : HaltReason)
  | fault (kind : FaultKind) (info : Nat)
  deriving DecidableEq, Repr

/-- The codes of R85 (decision D13). -/
def HaltReason.code : HaltReason → BitVec 2
  | .bufferEnd => 0
  | .hlt => 1
  | .igl => 2

/-- The codes of R86 (decision D13); 0 means no fault. -/
def FaultKind.code : FaultKind → BitVec 3
  | .fetchOutOfBounds => 1
  | .regIndexOutOfRange => 2
  | .divideByZero => 3
  | .divideOverflow => 4
  | .jumpNegative => 5
  | .pcUnderflow => 6
  | .pcOverflow => 7

/-- The source's boolean `halted` (R51, 90_conflicts.md C7): false for `Continued` only. -/
def StepResult.halts : StepResult → Bool
  | .continued => false
  | .halted _ => true
  | .fault _ _ => true

/-- The answer of `append_byte`, R26. -/
inductive AppendResult where
  | ok | full
  deriving DecidableEq, Repr

/-- `append_byte(b)` of R26 on a buffer of capacity `cap`. -/
def appendByteCap (cap : Nat) (b : Byte) (s : State) : AppendResult × State :=
  if s.buf.len < cap then (.ok, s.setBuf (s.buf.append b)) else (.full, s)

/-- `append_byte(b)` of R26. It is accepted whatever `fault` and `rs` are (decision D20). -/
def appendByte (b : Byte) (s : State) : AppendResult × State := appendByteCap Config.bufCap b s

/-- `append_byte` for each byte of a program in offset order (spec/70_reset_and_hazards.md R103), on a given capacity. -/
def appendAllCap (cap : Nat) : List Byte → State → State
  | [], s => s
  | b :: bs, s => appendAllCap cap bs (appendByteCap cap b s).2

/-- Why a step that halts in state s halts, R85. -/
def haltReason (s : State) : HaltReason :=
  if atBufferEnd s then .bufferEnd
  else match fetchInstr s with
    | .hlt => .hlt
    | _ => .igl

/-- What `step()` returns when it takes the engine from s to t: R51 and R58, read off the latch and the run status. -/
def stepResult (s t : State) : StepResult :=
  match t.fault with
  | some f => .fault f.kind f.info
  | none => match t.rs with
    | .halted => .halted (haltReason s)
    | .idle => .continued
    | .running => .continued

/-- The operation `step()` with its result (R53 to R56): the result and the state after it. A refused step answers the
latched fault and leaves the state as it is. `none` would mean an instruction without a meaning: there is none. -/
def hostStep (s : State) : Option (StepResult × State) :=
  match step s with
  | .next t => some (stepResult s t, t)
  | .fault (.latched kind info) => some (.fault kind info, s)
  | .refused _ => none

/-- `run_to_halt()` (R57), followed for at most `fuel` steps: `none` when none of them ends the run. -/
def hostRun : Nat → State → Option (StepResult × State)
  | 0, _ => none
  | fuel + 1, s =>
    match hostStep s with
    | none => none
    | some (.continued, t) => hostRun fuel t
    | some (r, t) => some (r, t)

/-- `run_to_halt()` returns r and leaves t. -/
def RunReturns (s : State) (r : StepResult) (t : State) : Prop := ∃ fuel, hostRun fuel s = some (r, t)

/-- `run_to_halt()` never returns (R57, R112). -/
def RunHangs (s : State) : Prop := ∀ fuel, hostRun fuel s = none

/-! The read accessors of R21 are functions of the state alone, so none of them changes a field. -/

/-- The register read port (R21, R62): not defined from index 32 up (decision D24). -/
def readRegister (i : Nat) (s : State) : Option Int := if h : i < 32 then some (s.ival ⟨i, h⟩) else none

/-- The buffer read port (R21, R62): not defined from offset len up (decision D24). -/
def readBuffer (k : Nat) (s : State) : Option Byte := s.buf.read k

/-- `pc_out` (R62). -/
def pcOut (s : State) : Nat := s.pc.toNat

/-- `len_out` (R62). -/
def lenOut (s : State) : Nat := s.buf.len

/-- `rem_out` (R62). -/
def remOut (s : State) : Nat := s.rem.toNat

/-- `flag_out` (R62). -/
def flagOut (s : State) : Bool := s.flag

/-- The accessor of the fault latch (R21; decision D16): none, or the kind, `info` and `at` of R18. -/
def readFault (s : State) : Option FaultLatch := s.fault

/-- The accessor of the run status (R21; decision D16): Idle, Running or Halted. -/
def readRs (s : State) : RunStatus := s.rs

/-- The level `halted` (R62). -/
def haltedOut (s : State) : Bool := readRs s = .halted

/-- The level `faulted` (R62). -/
def faultedOut (s : State) : Bool := (readFault s).isSome

/-- The latched fault's code as the response carries it, 0 for none (R62, R86). -/
def faultCodeOut (s : State) : BitVec 3 :=
  match readFault s with
  | none => 0
  | some f => f.kind.code

/-- The host's commands of R62. -/
inductive Command where
  | create
  | append (b : Byte)
  | step
  | run
  deriving DecidableEq, Repr

/-- The engine's responses of R62. -/
inductive Response where
  | none
  | append (r : AppendResult)
  | step (r : StepResult)
  deriving DecidableEq, Repr

/-- One command and its response, with a bound on the steps a `run` is followed for. -/
def command (fuel : Nat) (c : Command) (s : State) : Option (Response × State) :=
  match c with
  | .create => some (.none, Sys2Proof.Machine.create s)
  | .append b => some (.append (appendByte b s).1, (appendByte b s).2)
  | .step => (hostStep s).map fun p => (.step p.1, p.2)
  | .run => (hostRun fuel s).map fun p => (.step p.1, p.2)

end Sys2Proof.Machine
end

