-- ==== Sys2Proof/Safety.lean ====
section
/-! DEFINITION. The terms claims about the engine are stated in: how a step ends, which bytes an instruction fetches,
which state it may read and write, and the invariant of the states the host can bring about. -/

namespace Sys2Proof.Machine

/-- The result is a next state whose every field is the given one. Registers are read as signed integers, pc and rem as
unsigned ones (spec/00_scope.md R8); the buffer is the one of s, which no instruction changes. -/
def EndsAs (o : Result) (s : State) (regs : Reg → Int) (pc rem : Nat) (flag : Bool) (fault : Option FaultLatch)
    (rs : RunStatus) : Prop :=
  ∃ t, o = .next t ∧ (∀ r, t.ival r = regs r) ∧ t.pc.toNat = pc ∧ t.rem.toNat = rem ∧ t.flag = flag ∧
    t.buf = s.buf ∧ t.fault = fault ∧ t.rs = rs

/-- The step ends with `continue` (R9). -/
def Continues (o : Result) (s : State) (regs : Reg → Int) (pc rem : Nat) (flag : Bool) : Prop :=
  EndsAs o s regs pc rem flag s.fault .running

/-- The step ends with a halt (spec/60_exceptions.md R85) that writes only pc and rs. -/
def Halts (o : Result) (s : State) (pc : Nat) : Prop :=
  EndsAs o s s.ival pc s.rem.toNat s.flag s.fault .halted

/-- The step raises a fault (R94): x, pc, rem and flag as before it, the latch set, rs halted. -/
def Faults (o : Result) (s : State) (kind : FaultKind) (info : Nat) : Prop :=
  EndsAs o s s.ival s.pc.toNat s.rem.toNat s.flag (some { kind := kind, info := info, pc0 := s.pc }) .halted

/-- A register file with one register given a new value. -/
def setAt (f : Reg → Int) (d : Nat) (v : Int) : Reg → Int := fun r => if r.val = d then v else f r

/-- The register a byte names, as a value: x[b] for b < 32. -/
def State.at (s : State) (b : Byte) (h : b.toNat < 32) : Int := s.ival ⟨b.toNat, h⟩

/-- `wrap32(n)` as an integer: the i32 congruent to n modulo 2^32 (R8). -/
def wrapInt (n : Int) : Int := Int.bmod n (2 ^ 32)

/-! ### The bytes an instruction fetches (spec/30_encoding.md R47) and the faults of fetching them -/

/-- One operand or pad byte as it is fetched: as a register index, or unchecked. -/
inductive Slot where
  | reg (b : Byte)
  | raw
  deriving DecidableEq, Repr

/-- R47: what is fetched after the opcode byte, in fetch order. JEQ fetches its pads when the flag is false. -/
def plan (flag : Bool) : Instr → List Slot
  | .hlt => []
  | .load rd _ => [.reg rd, .raw, .raw]
  | .add a b d => [.reg a, .reg b, .reg d]
  | .sub a b d => [.reg a, .reg b, .reg d]
  | .mul a b d => [.reg a, .reg b, .reg d]
  | .div a b d => [.reg a, .reg b, .reg d]
  | .jmp t => [.reg t]
  | .jmpf t => [.reg t]
  | .jmpb t => [.reg t]
  | .eq a b => [.reg a, .reg b, .raw]
  | .neq a b => [.reg a, .reg b, .raw]
  | .gt a b => [.reg a, .reg b, .raw]
  | .lt a b => [.reg a, .reg b, .raw]
  | .gtq a b => [.reg a, .reg b, .raw]
  | .ltq a b => [.reg a, .reg b, .raw]
  | .jeq t => if flag then [.reg t] else [.reg t, .raw, .raw]
  | .igl => []

/-- R95, point 4: the first fault of fetching the slots from offset k on, in a buffer of length len. -/
def planFault (len : Nat) : Nat → List Slot → Option (FaultKind × Nat)
  | _, [] => none
  | k, .raw :: rest => if len ≤ k then some (.fetchOutOfBounds, k) else planFault len (k + 1) rest
  | k, .reg b :: rest =>
    if len ≤ k then some (.fetchOutOfBounds, k)
    else if 32 ≤ b.toNat then some (.regIndexOutOfRange, b.toNat)
    else planFault len (k + 1) rest

/-- The fault of the instruction's operand phase in state s, if it has one. -/
def operandFault (i : Instr) (s : State) : Option (FaultKind × Nat) :=
  planFault s.buf.len (s.pc.toNat + 1) (plan s.flag i)

/-! ### What an instruction reads and writes (spec/10_state.md R12, spec/60_exceptions.md R86) -/

/-- R12: the register bytes whose registers' values the result may depend on. -/
def reads (flag : Bool) : Instr → List Byte
  | .hlt => []
  | .load _ _ => []
  | .add a b _ => [a, b]
  | .sub a b _ => [a, b]
  | .mul a b _ => [a, b]
  | .div a b _ => [a, b]
  | .jmp t => [t]
  | .jmpf t => [t]
  | .jmpb t => [t]
  | .eq a b => [a, b]
  | .neq a b => [a, b]
  | .gt a b => [a, b]
  | .lt a b => [a, b]
  | .gtq a b => [a, b]
  | .ltq a b => [a, b]
  | .jeq t => if flag then [t] else []
  | .igl => []

/-- R12: the register byte of the one register the instruction may write. -/
def writes : Instr → List Byte
  | .hlt => []
  | .load d _ => [d]
  | .add _ _ d => [d]
  | .sub _ _ d => [d]
  | .mul _ _ d => [d]
  | .div _ _ d => [d]
  | .jmp _ => []
  | .jmpf _ => []
  | .jmpb _ => []
  | .eq _ _ => []
  | .neq _ _ => []
  | .gt _ _ => []
  | .lt _ _ => []
  | .gtq _ _ => []
  | .ltq _ _ => []
  | .jeq _ => []
  | .igl => []

/-- The six comparisons, R74. -/
def isCompare : Instr → Bool
  | .hlt => false
  | .load _ _ => false
  | .add _ _ _ => false
  | .sub _ _ _ => false
  | .mul _ _ _ => false
  | .div _ _ _ => false
  | .jmp _ => false
  | .jmpf _ => false
  | .jmpb _ => false
  | .eq _ _ => true
  | .neq _ _ => true
  | .gt _ _ => true
  | .lt _ _ => true
  | .gtq _ _ => true
  | .ltq _ _ => true
  | .jeq _ => false
  | .igl => false

/-- The four jumps, whose target comes from a register (R70, R81). -/
def isJump : Instr → Bool
  | .hlt => false
  | .load _ _ => false
  | .add _ _ _ => false
  | .sub _ _ _ => false
  | .mul _ _ _ => false
  | .div _ _ _ => false
  | .jmp _ => true
  | .jmpf _ => true
  | .jmpb _ => true
  | .eq _ _ => false
  | .neq _ _ => false
  | .gt _ _ => false
  | .lt _ _ => false
  | .gtq _ _ => false
  | .ltq _ _ => false
  | .jeq _ => true
  | .igl => false

/-- R86: the fault kinds an instruction can raise beyond the two of its operand phase. -/
def execFaults : Instr → List FaultKind
  | .hlt => []
  | .load _ _ => []
  | .add _ _ _ => []
  | .sub _ _ _ => []
  | .mul _ _ _ => []
  | .div _ _ _ => [.divideByZero, .divideOverflow]
  | .jmp _ => [.jumpNegative]
  | .jmpf _ => [.jumpNegative, .pcOverflow]
  | .jmpb _ => [.jumpNegative, .pcUnderflow]
  | .eq _ _ => []
  | .neq _ _ => []
  | .gt _ _ => []
  | .lt _ _ => []
  | .gtq _ _ => []
  | .ltq _ _ => []
  | .jeq _ => [.jumpNegative]
  | .igl => []

/-! ### The invariant -/

/-- What the latch can hold (R86): per kind, the range of `info`. -/
def FaultLatch.wf (f : FaultLatch) : Prop :=
  match f.kind with
  | .fetchOutOfBounds => f.pc0.toNat < f.info ∧ f.info ≤ f.pc0.toNat + 3
  | .regIndexOutOfRange => 32 ≤ f.info ∧ f.info < 256
  | .divideByZero => f.info < 32
  | .divideOverflow => f.info < 32
  | .jumpNegative => 2 ^ 31 ≤ f.info ∧ f.info < 2 ^ 32
  | .pcUnderflow => f.pc0.toNat + 2 < f.info ∧ f.info < 2 ^ 31
  | .pcOverflow => 2 ^ 32 ≤ f.pc0.toNat + 2 + f.info ∧ f.info < 2 ^ 31

/-- The invariant of every state the host can bring about: the buffer is in its canonical form and within its
capacity (R25, R27); a latched fault is one of R86, it names the offset pc still holds, the opcode byte it names is in
the buffer, and rs is Halted (R94); an Idle engine has executed nothing, so all but its buffer is as reset left it
(R19, R20). -/
structure State.Inv (s : State) : Prop where
  canonical : s.buf.wf = true
  capacity  : s.buf.len ≤ Config.bufCap
  latched   : ∀ f, s.fault = some f → f.wf ∧ f.pc0 = s.pc ∧ s.pc.toNat < s.buf.len ∧ s.rs = .halted
  idle      : s.rs = .idle → s = State.reset.setBuf s.buf

/-- n steps from s are each answered `Continued` (R51), and u is the state after them. -/
inductive ContinuedSteps : Nat → State → State → Prop where
  | zero (s : State) : ContinuedSteps 0 s s
  | succ {n : Nat} {s t u : State} : hostStep s = some (.continued, t) → ContinuedSteps n t u →
      ContinuedSteps (n + 1) s u

/-- The states the host can bring about from reset (R51, R103): a run is a sequence of steps. -/
inductive Reachable : State → Prop where
  | reset : Reachable State.reset
  | create {s} : Reachable s → Reachable (create s)
  | append {s} (b : Byte) : Reachable s → Reachable (appendByte b s).2
  | step {s t} : Reachable s → step s = .next t → Reachable t

end Sys2Proof.Machine
end

