-- ==== Sys2Proof/Certificates/Slice0/Obligations.lean ====
section
/-! DEFINITION. The statements for the provers. A hypothesis `s.buf.len < 2 ^ 32` is the invariant's capacity clause
(spec/20_memory.md R27, `State.Inv`): states that break it are reached by no run. A docstring that names a decision D<n>
says that the clause is the spec's own choice (spec/92_eei_decisions.md), not a sentence of its source. -/

open Sys2Proof Sys2Proof.Machine

/-! ### Encoding -/

/-- Under every opcode map that D1 allows, decoding the encoding of an instruction gives it back with every operand byte
and immediate, whatever follows in the stream. So no bit of an encoding is dropped; it rests on none of D1's values. -/
def Obligations.DecodeUndoesEncodeUnderEveryOpcodeMap : Prop :=
  ∀ (m : List Opcode) (i : Instr) (rest : List Byte), opmapValid m = true →
    decodeWith m (encodeWith m i ++ rest) = .ok i rest

/-- Every opcode byte selects the instruction of the opcode map, with the operand bytes of its format; the immediate is
big-endian. The bytes 2, 3, 4, 6, 7, 8 and 10 to 15 are decision D1's (log entry 6). -/
def Obligations.OpcodeByteSelectsTheInstruction : Prop :=
  ∀ b0 b1 b2 b3 : Byte,
    (b0.toNat = 0 → decode4 b0 b1 b2 b3 = .hlt) ∧
    (b0.toNat = 1 → ∃ imm : Imm16, imm.toNat = b2.toNat * 256 + b3.toNat ∧ decode4 b0 b1 b2 b3 = .load b1 imm) ∧
    (b0.toNat = 2 → decode4 b0 b1 b2 b3 = .add b1 b2 b3) ∧
    (b0.toNat = 3 → decode4 b0 b1 b2 b3 = .sub b1 b2 b3) ∧
    (b0.toNat = 4 → decode4 b0 b1 b2 b3 = .mul b1 b2 b3) ∧
    (b0.toNat = 5 → decode4 b0 b1 b2 b3 = .div b1 b2 b3) ∧
    (b0.toNat = 6 → decode4 b0 b1 b2 b3 = .jmp b1) ∧
    (b0.toNat = 7 → decode4 b0 b1 b2 b3 = .jmpf b1) ∧
    (b0.toNat = 8 → decode4 b0 b1 b2 b3 = .jmpb b1) ∧
    (b0.toNat = 9 → decode4 b0 b1 b2 b3 = .eq b1 b2) ∧
    (b0.toNat = 10 → decode4 b0 b1 b2 b3 = .neq b1 b2) ∧
    (b0.toNat = 11 → decode4 b0 b1 b2 b3 = .gt b1 b2) ∧
    (b0.toNat = 12 → decode4 b0 b1 b2 b3 = .lt b1 b2) ∧
    (b0.toNat = 13 → decode4 b0 b1 b2 b3 = .gtq b1 b2) ∧
    (b0.toNat = 14 → decode4 b0 b1 b2 b3 = .ltq b1 b2) ∧
    (b0.toNat = 15 → decode4 b0 b1 b2 b3 = .jeq b1) ∧
    (16 ≤ b0.toNat → decode4 b0 b1 b2 b3 = .igl)

/-- R45: exactly the opcode bytes 16..255 are IGL; its canonical byte is 255; it halts exactly as HLT does. -/
def Obligations.IllegalOpcodesAreOneInstruction : Prop :=
  (∀ b0 b1 b2 b3 : Byte, decode4 b0 b1 b2 b3 = .igl ↔ 16 ≤ b0.toNat) ∧
    encode .igl = [255, 0, 0, 0] ∧ ∀ s : State, exec .igl s = exec .hlt s

/-- Pad bytes are don't-care in every format: changing them decodes to the same instruction. -/
def Obligations.PadBytesAreDontCare : Prop :=
  ∀ b0 b1 b2 b3 p q r : Byte,
    (b0.toNat = 0 ∨ 16 ≤ b0.toNat → decode4 b0 b1 b2 b3 = decode4 b0 p q r) ∧
    (b0.toNat ∈ [6, 7, 8, 15] → decode4 b0 b1 b2 b3 = decode4 b0 b1 q r) ∧
    (b0.toNat ∈ [9, 10, 11, 12, 13, 14] → decode4 b0 b1 b2 b3 = decode4 b0 b1 b2 r)

/-- Sanity: the words the spec's source prints, and the two formats' words whose opcode bytes are D1's (JMPB, LTQ). -/
def Obligations.WordsPrintedInTheSpecDecode : Prop :=
  decode [1, 0, 1, 244] = .ok (.load 0 500) [] ∧ decode [5, 0, 1, 2] = .ok (.div 0 1 2) [] ∧
    decode [9, 0, 1, 0, 9, 0, 1, 0] = .ok (.eq 0 1) [9, 0, 1, 0] ∧ decode [0, 0, 0, 0] = .ok .hlt [] ∧
    decode [255, 0, 0, 0] = .ok .igl [] ∧ decode [8, 4, 0, 0] = .ok (.jmpb 4) [] ∧
    decode [14, 0, 1, 0] = .ok (.ltq 0 1) [] ∧ decode [4, 0, 1] = .truncated 3

/-! ### The step -/

/-- When the four bytes at pc decode to an instruction, the step is exec of it: the step adds nothing around exec. -/
def Obligations.StepRunsTheDecodedInstruction : Prop :=
  ∀ (s : State) (b0 b1 b2 b3 : Byte) (i : Instr), s.fault = none →
    s.buf.read s.pc.toNat = some b0 → s.buf.read (s.pc.toNat + 1) = some b1 →
    s.buf.read (s.pc.toNat + 2) = some b2 → s.buf.read (s.pc.toNat + 3) = some b3 →
    decode [b0, b1, b2, b3] = .ok i [] → step s = exec i s

/-- When the buffer holds the encoding of an instruction at pc, the step is exec of that instruction. -/
def Obligations.StepRunsTheEncodedInstruction : Prop :=
  ∀ (s : State) (i : Instr), s.fault = none →
    (∀ j b, (encode i)[j]? = some b → s.buf.read (s.pc.toNat + j) = some b) → step s = exec i s

/-- Near the buffer's end: whatever bytes stand for the missing ones, the step is exec of the instruction they complete.
So a byte that is not in the buffer never matters, and one that is fetched must exist. -/
def Obligations.OnlyBytesInTheBufferMatter : Prop :=
  ∀ (s : State) (b0 b1 b2 b3 : Byte), s.fault = none → s.buf.read s.pc.toNat = some b0 →
    (∀ c, s.buf.read (s.pc.toNat + 1) = some c → b1 = c) →
    (∀ c, s.buf.read (s.pc.toNat + 2) = some c → b2 = c) →
    (∀ c, s.buf.read (s.pc.toNat + 3) = some c → b3 = c) →
    step s = exec (decode4 b0 b1 b2 b3) s

/-- R53: a latched fault is answered again with no state change; else, at or past the buffer end, the step answers
Halted(BufferEnd) and writes rs only; else it goes on with one instruction (R54). -/
def Obligations.StepTestsLatchThenBufferEnd : Prop :=
  (∀ (s : State) (f : FaultLatch), s.fault = some f → hostStep s = some (.fault f.kind f.info, s)) ∧
  (∀ s : State, s.fault = none → s.buf.len ≤ s.pc.toNat →
    Halts (step s) s s.pc.toNat ∧ ∃ t, step s = .next t ∧ hostStep s = some (.halted .bufferEnd, t)) ∧
  (∀ s : State, s.fault = none → s.pc.toNat < s.buf.len →
    step s = exec (fetchInstr s) s ∧ ∀ t, hostStep s ≠ some (.halted .bufferEnd, t))

/-- A latched fault is terminal (decision D12): every step and every run_to_halt answers it again and changes nothing,
appending does not clear it, and `create` does. That a refused step is the model's outcome `fault` is log entry 1. -/
def Obligations.LatchedFaultIsTerminal : Prop :=
  ∀ (s : State) (f : FaultLatch), s.fault = some f →
    (∀ n, hostRun (n + 1) s = some (.fault f.kind f.info, s)) ∧
    (∀ n, Host.Core.run core (n + 1) s = .fault (.latched f.kind f.info)) ∧
    (∀ b, (appendByte b s).2.fault = some f) ∧ (create s).fault = none

/-- Every instruction, well-formed or not, answers a next state in every state. -/
def Obligations.EveryInstructionAnswersANextState : Prop :=
  ∀ (i : Instr) (s : State), ∃ t, exec i s = .next t

/-- A step always returns (R113): it answers a next state exactly when no fault is latched (decision D12), and the host
always gets a result. -/
def Obligations.StepAnswersNextExactlyWhenNoFaultIsLatched : Prop :=
  ∀ s : State, ((∃ t, step s = .next t) ↔ s.fault = none) ∧ ∃ r t, hostStep s = some (r, t)

/-- Faults are precise (R55, R94; decision D12): a step that sets the latch leaves x, pc, buf, rem and flag as they
were, records pc0, and sets rs to Halted. -/
def Obligations.FaultingInstructionWritesOnlyLatchAndStatus : Prop :=
  ∀ (i : Instr) (s t : State), s.fault = none → exec i s = .next t → t.fault ≠ none →
    ∃ kind info, t.fault = some { kind := kind, info := info, pc0 := s.pc } ∧ (∀ r, t.ival r = s.ival r) ∧
      t.pc = s.pc ∧ t.buf = s.buf ∧ t.rem = s.rem ∧ t.flag = s.flag ∧ t.rs = .halted

/-- After every step, rs is Running exactly when the host is answered Continued, and Halted for any other answer; it is
never Idle (R58, decision D15). -/
def Obligations.RunStatusFollowsTheStepResult : Prop :=
  ∀ s t : State, step s = .next t →
    (t.rs = .running ∧ hostStep s = some (.continued, t)) ∨
    (t.rs = .halted ∧ ∃ r, r.halts = true ∧ hostStep s = some (r, t))

/-- Only HLT, an illegal opcode and the buffer's end halt, each exactly when it should (R84, R85). -/
def Obligations.OnlyThreeHaltingConditions : Prop :=
  ∀ s : State,
    ((∃ t, hostStep s = some (.halted .bufferEnd, t)) ↔ s.fault = none ∧ s.buf.len ≤ s.pc.toNat) ∧
    ((∃ t, hostStep s = some (.halted .hlt, t)) ↔ s.fault = none ∧ s.buf.read s.pc.toNat = some 0) ∧
    ((∃ t, hostStep s = some (.halted .igl, t)) ↔
      s.fault = none ∧ ∃ b, s.buf.read s.pc.toNat = some b ∧ 16 ≤ b.toNat)

/-! ### Operand fetching -/

/-- The operand phase faults in fetch order, bounds before index, byte by byte, for every instruction
(R41, R87, R88, R95; decisions D4, D5, D14). -/
def Obligations.OperandPhaseFaultsInFetchOrder : Prop :=
  ∀ (i : Instr) (s : State) (kind : FaultKind) (info : Nat), operandFault i s = some (kind, info) →
    Faults (exec i s) s kind info

/-- What each instruction can raise, and the range of `info` (R86, decision D13): after a clean operand phase only its
own execution faults, so none for LOAD, ADD, SUB, MUL, the comparisons, HLT and IGL. -/
def Obligations.FaultsRaisedByEachInstruction : Prop :=
  ∀ (i : Instr) (s t : State) (f : FaultLatch), s.fault = none → exec i s = .next t → t.fault = some f →
    f.wf ∧ f.pc0 = s.pc ∧
    (f.kind ∈ execFaults i ∨ operandFault i s = some (f.kind, f.info)) ∧
    (operandFault i s = none → f.kind ∈ execFaults i)

/-- The bytes an instruction fetches exist, and decide where pc stands (R47): every instruction but a taken jump that
does not fault leaves pc just past the last byte it fetched, which is in the buffer (for HLT and IGL by decision D18). -/
def Obligations.BytesFetchedDecideThePc : Prop :=
  ∀ (i : Instr) (s t : State), s.buf.len < 2 ^ 32 → s.pc.toNat < s.buf.len → exec i s = .next t → t.fault = none →
    s.pc.toNat + (plan s.flag i).length < s.buf.len ∧
    (isJump i = false ∨ ((∃ r, i = .jeq r) ∧ s.flag = false) →
      t.pc.toNat = s.pc.toNat + 1 + (plan s.flag i).length)

/-! ### Frames and what instructions depend on -/

/-- The frame of every instruction: registers but its destination, the flag but for the comparisons, rem but for DIV,
the latch unless a fault is taken, and every byte of the buffer are unchanged (R12, R15 to R18). -/
def Obligations.InstructionFrame : Prop :=
  ∀ (i : Instr) (s t : State), exec i s = .next t →
    (∀ r : Reg, (∀ d ∈ writes i, d.toNat ≠ r.val) → t.ival r = s.ival r) ∧
    (isCompare i = false → t.flag = s.flag) ∧
    ((∀ a b d, i ≠ .div a b d) → t.rem = s.rem) ∧
    (∀ k, t.buf.read k = s.buf.read k) ∧ t.buf.len = s.buf.len ∧
    (t.fault = s.fault ∨ t.rs = .halted ∧ ∃ f, t.fault = some f)

/-- A register an instruction does not read does not matter to it (R12): running it with that register changed gives the
same next state but for that register. JEQ with the flag false reads none. -/
def Obligations.UnreadRegistersDoNotMatter : Prop :=
  ∀ (i : Instr) (s t : State) (r : Reg) (v : Word), (∀ b ∈ reads s.flag i, b.toNat ≠ r.val) →
    exec i s = .next t → ∃ t', exec i (s.setReg r v) = .next t' ∧ t'.setReg r 0 = t.setReg r 0

/-- R16: only DIV writes rem, each DIV that does not fault writes it whatever it held, no instruction reads it, the host
reads it, and it is 0 after reset. -/
def Obligations.RemIsWrittenByDivAndReadByNone : Prop :=
  (∀ (i : Instr) (s t : State), exec i s = .next t → t.rem ≠ s.rem → ∃ a b d, i = .div a b d) ∧
  (∀ (i : Instr) (s t : State) (v : Word), exec i s = .next t →
    ∃ t', exec i (s.setRem v) = .next t' ∧ t'.setRem 0 = t.setRem 0) ∧
  (∀ (a b d : Byte) (s t : State) (v : Word), exec (.div a b d) s = .next t → t.rs = .running →
    exec (.div a b d) (s.setRem v) = .next t) ∧
  (∀ s : State, remOut s = s.rem.toNat) ∧ remOut State.reset = 0

/-- R17: only the six comparisons write the flag, each that does not fault writes it whatever it held, JEQ reads it and
nothing else does, JEQ does not change it, the host reads it, and it is false after reset, so that a JEQ then falls
through to pc0 + 4. -/
def Obligations.FlagIsWrittenByComparisonsAndReadByJeq : Prop :=
  (∀ (i : Instr) (s t : State), exec i s = .next t → t.flag ≠ s.flag → isCompare i = true) ∧
  (∀ (i : Instr) (s t : State) (b : Bool), (∀ r, i ≠ .jeq r) → exec i s = .next t →
    ∃ t', exec i (s.setFlag b) = .next t' ∧ t'.setFlag false = t.setFlag false) ∧
  (∀ (i : Instr) (s t : State) (b : Bool), isCompare i = true → exec i s = .next t → t.rs = .running →
    exec i (s.setFlag b) = .next t) ∧
  (∀ (r : Byte) (s t : State), exec (.jeq r) s = .next t → t.flag = s.flag) ∧
  (∀ s : State, flagOut s = s.flag) ∧ flagOut State.reset = false ∧
  ∀ (r : Byte) (m : Memory), r.toNat < 32 → 3 < m.len →
    Continues (exec (.jeq r) (State.reset.setBuf m)) (State.reset.setBuf m) State.reset.ival 4 0 false ∧
    Continues (exec (.jeq r) ((State.reset.setBuf m).setFlag true)) (State.reset.setBuf m) State.reset.ival 0 0 true

/-- R15: a byte once appended never changes and is never removed by a step or an append. -/
def Obligations.AppendedBytesNeverChange : Prop :=
  ∀ (s : State) (k : Nat) (b : Byte), s.buf.read k = some b →
    (∀ t, step s = .next t → t.buf.read k = some b) ∧ (∀ c, (appendByte c s).2.buf.read k = some b) ∧
    (∀ fuel r t, hostRun fuel s = some (r, t) → t.buf.read k = some b)

/-! ### The instructions -/

/-- R63, whole: the encoding, the zero-extended immediate, pc0 + 4, and every fault in fetch order. -/
def Obligations.LoadWritesTheZeroExtendedImmediate : Prop :=
  (∀ rd hi lo : Byte, ∃ imm : Imm16, imm.toNat = hi.toNat * 256 + lo.toNat ∧ decode4 1 rd hi lo = .load rd imm) ∧
  ∀ (s : State) (rd : Byte) (imm : Imm16), s.buf.len < 2 ^ 32 →
    (s.pc.toNat + 3 < s.buf.len → rd.toNat < 32 →
      Continues (exec (.load rd imm) s) s (setAt s.ival rd.toNat imm.toNat) (s.pc.toNat + 4) s.rem.toNat s.flag) ∧
    (s.buf.len ≤ s.pc.toNat + 1 → Faults (exec (.load rd imm) s) s .fetchOutOfBounds (s.pc.toNat + 1)) ∧
    (s.pc.toNat + 1 < s.buf.len → 32 ≤ rd.toNat →
      Faults (exec (.load rd imm) s) s .regIndexOutOfRange rd.toNat) ∧
    (s.pc.toNat + 1 < s.buf.len → rd.toNat < 32 → s.buf.len ≤ s.pc.toNat + 2 →
      Faults (exec (.load rd imm) s) s .fetchOutOfBounds (s.pc.toNat + 2)) ∧
    (s.pc.toNat + 2 < s.buf.len → rd.toNat < 32 → s.buf.len ≤ s.pc.toNat + 3 →
      Faults (exec (.load rd imm) s) s .fetchOutOfBounds (s.pc.toNat + 3))

/-- ADD: the sum of the signed operands wrapped to 32 bits, pc0 + 4 (R65; decision D8, log entry 7). -/
def Obligations.AddWritesTheWrappedSum : Prop :=
  ∀ (s : State) (a b d : Byte) (ha : a.toNat < 32) (hb : b.toNat < 32), d.toNat < 32 → s.buf.len < 2 ^ 32 →
    s.pc.toNat + 3 < s.buf.len →
    Continues (exec (.add a b d) s) s (setAt s.ival d.toNat (wrapInt (s.at a ha + s.at b hb))) (s.pc.toNat + 4)
      s.rem.toNat s.flag

/-- SUB: the first operand minus the second, wrapped to 32 bits, pc0 + 4 (R66; decision D8, log entry 7). -/
def Obligations.SubWritesTheWrappedDifference : Prop :=
  ∀ (s : State) (a b d : Byte) (ha : a.toNat < 32) (hb : b.toNat < 32), d.toNat < 32 → s.buf.len < 2 ^ 32 →
    s.pc.toNat + 3 < s.buf.len →
    Continues (exec (.sub a b d) s) s (setAt s.ival d.toNat (wrapInt (s.at a ha - s.at b hb))) (s.pc.toNat + 4)
      s.rem.toNat s.flag

/-- MUL: the full product wrapped to 32 bits, pc0 + 4 (R67; decision D8, log entry 7). -/
def Obligations.MulWritesTheWrappedProduct : Prop :=
  ∀ (s : State) (a b d : Byte) (ha : a.toNat < 32) (hb : b.toNat < 32), d.toNat < 32 → s.buf.len < 2 ^ 32 →
    s.pc.toNat + 3 < s.buf.len →
    Continues (exec (.mul a b d) s) s (setAt s.ival d.toNat (wrapInt (s.at a ha * s.at b hb))) (s.pc.toNat + 4)
      s.rem.toNat s.flag

/-- Where the exact result is a signed 32-bit integer, ADD, SUB and MUL write it: this much rests on no decision. -/
def Obligations.ArithmeticIsExactInRange : Prop :=
  ∀ (s : State) (a b d : Byte) (ha : a.toNat < 32) (hb : b.toNat < 32), d.toNat < 32 → s.buf.len < 2 ^ 32 →
    s.pc.toNat + 3 < s.buf.len → ∀ n : Int, -2147483648 ≤ n → n ≤ 2147483647 →
    (n = s.at a ha + s.at b hb →
      Continues (exec (.add a b d) s) s (setAt s.ival d.toNat n) (s.pc.toNat + 4) s.rem.toNat s.flag) ∧
    (n = s.at a ha - s.at b hb →
      Continues (exec (.sub a b d) s) s (setAt s.ival d.toNat n) (s.pc.toNat + 4) s.rem.toNat s.flag) ∧
    (n = s.at a ha * s.at b hb →
      Continues (exec (.mul a b d) s) s (setAt s.ival d.toNat n) (s.pc.toNat + 4) s.rem.toNat s.flag)

/-- The low 32 bits of ADD, SUB and MUL do not depend on signedness (R69): as unsigned words the results are the
unsigned sum, difference and product modulo 2^32. -/
def Obligations.LowBitsDoNotDependOnSignedness : Prop :=
  ∀ (s : State) (a b d : Reg), s.pc.toNat + 3 < s.buf.len →
    (∃ t, exec (.add (.ofNat 8 a) (.ofNat 8 b) (.ofNat 8 d)) s = .next t ∧
      (t.reg d).toNat = ((s.reg a).toNat + (s.reg b).toNat) % 2 ^ 32) ∧
    (∃ t, exec (.sub (.ofNat 8 a) (.ofNat 8 b) (.ofNat 8 d)) s = .next t ∧
      (t.reg d).toNat = ((s.reg a).toNat + (2 ^ 32 - (s.reg b).toNat)) % 2 ^ 32) ∧
    (∃ t, exec (.mul (.ofNat 8 a) (.ofNat 8 b) (.ofNat 8 d)) s = .next t ∧
      (t.reg d).toNat = (s.reg a).toNat * (s.reg b).toNat % 2 ^ 32)

/-- DIV: the quotient truncated toward zero and the unsigned reading of its remainder, pc0 + 4, or one of the two divide
faults with nothing written (R68, R89, R90; decisions D6, D7, D9, log entries 8 and 11). -/
def Obligations.DivWritesQuotientAndRemainderOrFaults : Prop :=
  ∀ (s : State) (a b d : Byte) (ha : a.toNat < 32) (hb : b.toNat < 32), d.toNat < 32 → s.buf.len < 2 ^ 32 →
    s.pc.toNat + 3 < s.buf.len →
    (s.at b hb = 0 → Faults (exec (.div a b d) s) s .divideByZero b.toNat) ∧
    (s.at a ha = -2147483648 → s.at b hb = -1 → Faults (exec (.div a b d) s) s .divideOverflow b.toNat) ∧
    (s.at b hb ≠ 0 → ¬(s.at a ha = -2147483648 ∧ s.at b hb = -1) →
      Continues (exec (.div a b d) s) s
        (setAt s.ival d.toNat
          ((s.at a ha).sign * (s.at b hb).sign * ((s.at a ha).natAbs / (s.at b hb).natAbs : Nat)))
        (s.pc.toNat + 4)
        (((s.at a ha).sign * ((s.at a ha).natAbs % (s.at b hb).natAbs : Nat)) % 2 ^ 32).toNat s.flag)

/-- The identity of R69: whenever DIV does not fault, va = x[d] * vb + r, where r is 0 or has the sign of va, is smaller
than vb in absolute value, and is what rem holds modulo 2^32. -/
def Obligations.DivSatisfiesTheDivisionIdentity : Prop :=
  ∀ (s : State) (a b d : Byte) (ha : a.toNat < 32) (hb : b.toNat < 32) (hd : d.toNat < 32),
    s.pc.toNat + 3 < s.buf.len → s.at b hb ≠ 0 → ¬(s.at a ha = -2147483648 ∧ s.at b hb = -1) →
    ∃ (t : State) (r : Int), exec (.div a b d) s = .next t ∧ s.at a ha = t.at d hd * s.at b hb + r ∧
      r.natAbs < (s.at b hb).natAbs ∧ (r = 0 ∨ r.sign = (s.at a ha).sign) ∧ (t.rem.toNat : Int) = r % 2 ^ 32

/-- JMP: to the absolute offset the register holds, wherever that is; a negative one faults (R71, R91; decision D10).
Only the register byte need exist. -/
def Obligations.JmpGoesToTheRegistersOffset : Prop :=
  ∀ (s : State) (t : Byte) (ht : t.toNat < 32), s.pc.toNat + 1 < s.buf.len →
    (∀ v : Nat, s.at t ht = v → Continues (exec (.jmp t) s) s s.ival v s.rem.toNat s.flag) ∧
    (s.at t ht < 0 → Faults (exec (.jmp t) s) s .jumpNegative (s.at t ht + 2 ^ 32).toNat)

/-- JMPF: forward from pc0 + 2; a negative distance or a target from 2^32 up faults (R72; decisions D10, D11, D17). -/
def Obligations.JmpfGoesForwardFromPcPlusTwo : Prop :=
  ∀ (s : State) (t : Byte) (ht : t.toNat < 32), s.pc.toNat + 1 < s.buf.len →
    (∀ v : Nat, s.at t ht = v → s.pc.toNat + 2 + v < 2 ^ 32 →
      Continues (exec (.jmpf t) s) s s.ival (s.pc.toNat + 2 + v) s.rem.toNat s.flag) ∧
    (∀ v : Nat, s.at t ht = v → 2 ^ 32 ≤ s.pc.toNat + 2 + v → Faults (exec (.jmpf t) s) s .pcOverflow v) ∧
    (s.at t ht < 0 → Faults (exec (.jmpf t) s) s .jumpNegative (s.at t ht + 2 ^ 32).toNat)

/-- JMPB: backward from pc0 + 2; a negative distance or one past offset 0 faults (R73; decisions D10, D11, D17). -/
def Obligations.JmpbGoesBackwardFromPcPlusTwo : Prop :=
  ∀ (s : State) (t : Byte) (ht : t.toNat < 32), s.buf.len < 2 ^ 32 → s.pc.toNat + 1 < s.buf.len →
    (∀ v : Nat, s.at t ht = v → v ≤ s.pc.toNat + 2 →
      Continues (exec (.jmpb t) s) s s.ival (s.pc.toNat + 2 - v) s.rem.toNat s.flag) ∧
    (∀ v : Nat, s.at t ht = v → s.pc.toNat + 2 < v → Faults (exec (.jmpb t) s) s .pcUnderflow v) ∧
    (s.at t ht < 0 → Faults (exec (.jmpb t) s) s .jumpNegative (s.at t ht + 2 ^ 32).toNat)

/-- JEQ: with the flag true, to the absolute offset the register holds (a negative one faults) and the pads need not
exist; with it false, to pc0 + 4, whatever the register holds, and the pads must exist. The flag keeps its value and the
register byte is checked in both cases (R81; decisions D4, D5, D10). -/
def Obligations.JeqJumpsExactlyWhenTheFlagIsSet : Prop :=
  ∀ (s : State) (t : Byte), s.buf.len < 2 ^ 32 → s.pc.toNat + 1 < s.buf.len →
    (∀ (ht : t.toNat < 32) (v : Nat), s.flag = true → s.at t ht = v →
      Continues (exec (.jeq t) s) s s.ival v s.rem.toNat true) ∧
    (∀ ht : t.toNat < 32, s.flag = true → s.at t ht < 0 →
      Faults (exec (.jeq t) s) s .jumpNegative (s.at t ht + 2 ^ 32).toNat) ∧
    (s.flag = false → t.toNat < 32 → s.pc.toNat + 3 < s.buf.len →
      Continues (exec (.jeq t) s) s s.ival (s.pc.toNat + 4) s.rem.toNat false) ∧
    (s.flag = false → t.toNat < 32 → s.buf.len ≤ s.pc.toNat + 2 →
      Faults (exec (.jeq t) s) s .fetchOutOfBounds (s.pc.toNat + 2)) ∧
    (s.flag = false → t.toNat < 32 → s.pc.toNat + 2 < s.buf.len → s.buf.len ≤ s.pc.toNat + 3 →
      Faults (exec (.jeq t) s) s .fetchOutOfBounds (s.pc.toNat + 3)) ∧
    (32 ≤ t.toNat → Faults (exec (.jeq t) s) s .regIndexOutOfRange t.toNat)

/-- R74 to R80: each comparison writes the flag with the exact signed relation of its operands, left operand first, and
leaves pc at pc0 + 4 whatever the outcome; the pad must exist, is not examined, and every fault (decisions D4, D5) leaves the
flag alone. -/
def Obligations.ComparisonsWriteTheFlag : Prop :=
  ∀ (s : State) (a b : Byte), s.buf.len < 2 ^ 32 →
    (∀ (ha : a.toNat < 32) (hb : b.toNat < 32), s.pc.toNat + 3 < s.buf.len →
      Continues (exec (.eq a b) s) s s.ival (s.pc.toNat + 4) s.rem.toNat (decide (s.at a ha = s.at b hb)) ∧
      Continues (exec (.neq a b) s) s s.ival (s.pc.toNat + 4) s.rem.toNat (decide (s.at a ha ≠ s.at b hb)) ∧
      Continues (exec (.gt a b) s) s s.ival (s.pc.toNat + 4) s.rem.toNat (decide (s.at b hb < s.at a ha)) ∧
      Continues (exec (.lt a b) s) s s.ival (s.pc.toNat + 4) s.rem.toNat (decide (s.at a ha < s.at b hb)) ∧
      Continues (exec (.gtq a b) s) s s.ival (s.pc.toNat + 4) s.rem.toNat (decide (s.at b hb ≤ s.at a ha)) ∧
      Continues (exec (.ltq a b) s) s s.ival (s.pc.toNat + 4) s.rem.toNat (decide (s.at a ha ≤ s.at b hb))) ∧
    (∀ i ∈ [Instr.eq a b, Instr.neq a b, Instr.gt a b, Instr.lt a b, Instr.gtq a b, Instr.ltq a b],
      (s.buf.len ≤ s.pc.toNat + 1 → Faults (exec i s) s .fetchOutOfBounds (s.pc.toNat + 1)) ∧
      (s.pc.toNat + 1 < s.buf.len → 32 ≤ a.toNat → Faults (exec i s) s .regIndexOutOfRange a.toNat) ∧
      (s.pc.toNat + 1 < s.buf.len → a.toNat < 32 → s.buf.len ≤ s.pc.toNat + 2 →
        Faults (exec i s) s .fetchOutOfBounds (s.pc.toNat + 2)) ∧
      (s.pc.toNat + 2 < s.buf.len → a.toNat < 32 → 32 ≤ b.toNat →
        Faults (exec i s) s .regIndexOutOfRange b.toNat) ∧
      (s.pc.toNat + 2 < s.buf.len → a.toNat < 32 → b.toNat < 32 → s.buf.len ≤ s.pc.toNat + 3 →
        Faults (exec i s) s .fetchOutOfBounds (s.pc.toNat + 3)))

/-- R82 (pc0 + 1 by conflict C6 and decision D18, log entry 10): opcode byte 0 is HLT whatever its pads, which need not
exist; it halts with reason Hlt, writes pc0 + 1 and rs and nothing else, raises nothing, and encodes as four zero bytes. -/
def Obligations.HltHaltsAtPcPlusOne : Prop :=
  (∀ b1 b2 b3 : Byte, decode4 0 b1 b2 b3 = .hlt) ∧ encode .hlt = [0, 0, 0, 0] ∧
  ∀ s : State, s.buf.len < 2 ^ 32 → s.pc.toNat < s.buf.len →
    Halts (exec .hlt s) s (s.pc.toNat + 1) ∧
    (s.fault = none → s.buf.read s.pc.toNat = some 0 →
      Halts (step s) s (s.pc.toNat + 1) ∧ ∃ t, step s = .next t ∧ hostStep s = some (.halted .hlt, t))

/-- R83 (pc0 + 1 by conflict C6 and decision D18, log entry 10): an opcode byte 16..255 is IGL whatever its pads; it
halts with reason Igl, writes pc0 + 1 and rs and nothing else, latches no fault, and encodes with byte 255. -/
def Obligations.IglHaltsAtPcPlusOne : Prop :=
  (∀ b0 b1 b2 b3 : Byte, 16 ≤ b0.toNat → decode4 b0 b1 b2 b3 = .igl) ∧ encode .igl = [255, 0, 0, 0] ∧
  ∀ s : State, s.buf.len < 2 ^ 32 → s.pc.toNat < s.buf.len →
    Halts (exec .igl s) s (s.pc.toNat + 1) ∧
    (∀ b : Byte, s.fault = none → s.buf.read s.pc.toNat = some b → 16 ≤ b.toNat →
      Halts (step s) s (s.pc.toNat + 1) ∧ ∃ t, step s = .next t ∧ hostStep s = some (.halted .igl, t))

/-! ### The invariant -/

/-- The invariant holds after reset. -/
def Obligations.ResetMeetsTheInvariant : Prop := State.reset.Inv

/-- Every step from a state that meets the invariant gives one that meets it: the buffer stays canonical and within its
capacity, a latched fault is one of R86 at the offset pc holds with rs Halted, and an Idle engine has run nothing. -/
def Obligations.StepKeepsTheInvariant : Prop :=
  ∀ s t : State, s.Inv → step s = .next t → t.Inv

/-- `append_byte` and `create` keep the invariant. -/
def Obligations.HostOperationsKeepTheInvariant : Prop :=
  ∀ s : State, s.Inv → (∀ b, (appendByte b s).2.Inv) ∧ (create s).Inv

/-- Every state the host can bring about, with any program it appends and any interleaving of appends, steps and
resets, meets the invariant; in particular its len fits 32 bits. -/
def Obligations.ReachableStatesMeetTheInvariant : Prop :=
  ∀ s : State, Reachable s → s.Inv ∧ s.buf.len < 2 ^ 32

/-! ### The host's operations -/

/-- `append_byte` (R26; decision D3 for a full buffer): the new byte stands at the old len, every other byte and every
other field is as before; on a full buffer nothing changes. It is accepted whatever the latch and rs are. -/
def Obligations.AppendGrowsTheBufferByOneByte : Prop :=
  ∀ (cap : Nat) (b : Byte) (s : State),
    (cap ≤ s.buf.len → appendByteCap cap b s = (.full, s)) ∧
    (s.buf.wf = true → s.buf.len < cap → ∃ m : Memory, appendByteCap cap b s = (.ok, s.setBuf m) ∧
      m.len = s.buf.len + 1 ∧ m.read s.buf.len = some b ∧ (∀ k, k < s.buf.len → m.read k = s.buf.read k) ∧
      m.bytes = s.buf.bytes ++ [b] ∧ m.wf = true)

/-- Two canonical buffers that stand for the same byte sequence are the same record (the model's own form, log
entry 4). -/
def Obligations.CanonicalBuffersAreByteSequences : Prop :=
  ∀ m n : Memory, m.wf = true → n.wf = true → m.bytes = n.bytes → m = n

/-- Loading (R103): appending a program that fits, from reset, leaves exactly its bytes in the buffer and every other
field at its reset value. -/
def Obligations.LoadingAProgramLeavesItsBytes : Prop :=
  ∀ (cap : Nat) (prog : List Byte), prog.length ≤ cap →
    ∃ m : Memory, appendAllCap cap prog State.reset = State.reset.setBuf m ∧ m.bytes = prog ∧ m.wf = true

/-- After the buffer end (R37, R60): one appended byte at pc = len makes the next step run the instruction it starts;
where a jump left pc beyond len, the byte fills the gap and the next step still answers BufferEnd. -/
def Obligations.AppendedByteIsFetchableAtOnce : Prop :=
  ∀ (cap : Nat) (b : Byte) (s : State), s.buf.wf = true → s.fault = none → s.buf.len < cap →
    (s.pc.toNat = s.buf.len → ∃ b1 b2 b3, step (appendByteCap cap b s).2 =
      exec (decode4 b b1 b2 b3) (appendByteCap cap b s).2) ∧
    (s.buf.len < s.pc.toNat → ∃ t, hostStep (appendByteCap cap b s).2 = some (.halted .bufferEnd, t))

/-- `create` (R52, R101): every field at its reset value whatever the state before. It is the only operation that
empties the buffer or clears the latch: a step does neither, nor does `append_byte`, which writes no other field. -/
def Obligations.CreateResetsEveryField : Prop :=
  ∀ s : State,
    ((∀ r, (create s).ival r = 0) ∧ (create s).pc.toNat = 0 ∧ (create s).buf.len = 0 ∧
      (∀ k, (create s).buf.read k = none) ∧ (create s).rem.toNat = 0 ∧ (create s).flag = false ∧
      (create s).fault = none ∧ (create s).rs = .idle) ∧
    (∀ t, step s = .next t → t.buf.len = s.buf.len ∧ (t.fault = none → s.fault = none)) ∧
    (∀ b, s.buf.len ≤ (appendByte b s).2.buf.len ∧ ∃ m, (appendByte b s).2 = s.setBuf m)

/-- Stepping past a HLT walks its zero pads (R59, R110; decision D18, log entry 10): each of the four bytes halts again
and pc advances by one a step. -/
def Obligations.SteppingPastHltWalksItsPads : Prop :=
  ∀ s : State, s.fault = none → s.buf.len < 2 ^ 32 → (∀ j, j < 4 → s.buf.read (s.pc.toNat + j) = some 0) →
    ∀ n, 1 ≤ n → n ≤ 4 → ∃ t, Host.Core.run core n s = .next t ∧ t.pc.toNat = s.pc.toNat + n ∧
      (∀ r, t.ival r = s.ival r) ∧ t.rem = s.rem ∧ t.flag = s.flag ∧ t.fault = none ∧ t.rs = .halted

/-- A JMP to its own offset is a hang of run_to_halt (R57, R71, R112): no number of steps ends it. The opcode byte of
JMP is decision D1's. -/
def Obligations.JumpToSelfNeverReturns : Prop :=
  ∀ (s : State) (r : Reg), s.fault = none → s.buf.read s.pc.toNat = some 6 →
    s.buf.read (s.pc.toNat + 1) = some (.ofNat 8 r) → s.ival r = s.pc.toNat → RunHangs s

/-- run_to_halt (R57) returns exactly the first result that is not `Continued`, with the state after that step: so it
returns at most one answer, whatever the fuel, and it hangs exactly when every number of steps is answered
`Continued`. -/
def Obligations.RunToHaltReturnsOneAnswer : Prop :=
  (∀ (s : State) (r : StepResult) (t : State), RunReturns s r t ↔
    r ≠ .continued ∧ ∃ n u, ContinuedSteps n s u ∧ hostStep u = some (r, t)) ∧
  (∀ (s : State) (r r' : StepResult) (t t' : State), RunReturns s r t → RunReturns s r' t' → r' = r ∧ t' = t) ∧
  ∀ s : State, RunHangs s ↔ ∀ n, ∃ u, ContinuedSteps n s u

/-- The read accessors (R21; decisions D16, D24) are defined exactly inside their domains, and read what the state holds:
the registers, the bytes of the buffer, pc, len, rem, flag, fault and rs. -/
def Obligations.AccessorsAreDefinedInsideTheirDomains : Prop :=
  ∀ s : State, (∀ r : Reg, readRegister r.val s = some (s.ival r)) ∧ (∀ i, 32 ≤ i → readRegister i s = none) ∧
    (∀ k, readBuffer k s = s.buf.bytes[k]?) ∧ (∀ k, k < lenOut s → ∃ b, readBuffer k s = some b) ∧
    (∀ k, lenOut s ≤ k → readBuffer k s = none) ∧ lenOut s = s.buf.bytes.length ∧ pcOut s = s.pc.toNat ∧
    remOut s = s.rem.toNat ∧ flagOut s = s.flag ∧ readFault s = s.fault ∧ readRs s = s.rs ∧
    (haltedOut s = true ↔ s.rs = .halted) ∧ (faultedOut s = true ↔ ∃ f, s.fault = some f)
end

