-- ==== Sys2Proof/Laws/Memory.lean ====
section
/-! SUPPORT. The byte-code buffer: read after write, and the canonical form that every memory operation keeps. -/

namespace Sys2Proof.Machine

/-- A byte put at one offset leaves every other offset's byte alone. -/
theorem lookupCell_putCell_other (cs : List Host.Cell) {k j : Nat} (b : Byte) (h : j ≠ k) :
    lookupCell (putCell cs k b) j = lookupCell cs j := by
  induction cs with
  | nil => by_cases hb : b = 0#8 <;> simp [putCell, lookupCell, hb, h.symm]
  | cons c rest ih =>
    obtain ⟨a, d⟩ := c
    unfold putCell
    split_ifs with h1 h2 h3 h4
    · rfl
    · simp [lookupCell, h.symm]
    · subst h3
      simp [lookupCell, h.symm]
    · subst h3
      simp [lookupCell, h.symm]
    · simp only [lookupCell, ih]

/-- In a list whose offsets all lie from `lo` on, an offset below `lo` reads 0. -/
theorem lookupCell_below {lo len k : Nat} {cs : List Host.Cell} (h : cellsWf lo len cs = true) (hk : k < lo) :
    lookupCell cs k = 0 := by
  induction cs generalizing lo with
  | nil => rfl
  | cons c rest ih =>
    obtain ⟨a, d⟩ := c
    simp only [cellsWf, Bool.and_eq_true, decide_eq_true_eq] at h
    simp only [lookupCell]
    rw [if_neg (by omega)]
    exact ih h.2 (by omega)

/-- An offset that lists put there reads the byte put there. -/
theorem lookupCell_putCell_same {lo len : Nat} {cs : List Host.Cell} (h : cellsWf lo len cs = true) (k : Nat) (b : Byte) :
    lookupCell (putCell cs k b) k = b := by
  induction cs generalizing lo with
  | nil => by_cases hb : b = 0#8 <;> simp [putCell, lookupCell, hb]
  | cons c rest ih =>
    obtain ⟨a, d⟩ := c
    simp only [cellsWf, Bool.and_eq_true, decide_eq_true_eq] at h
    unfold putCell
    split_ifs with h1 h2 h3 h4
    · simp only [lookupCell]
      rw [if_neg (by omega), lookupCell_below h.2 (by omega), h2]
    · simp [lookupCell]
    · rw [lookupCell_below h.2 (by omega), h4]
    · simp [lookupCell]
    · simp only [lookupCell]
      rw [if_neg (by omega)]
      exact ih h.2

/-- A list in canonical form stays in it when its bounds widen. -/
theorem cellsWf_widen {lo lo' len len' : Nat} {cs : List Host.Cell} (h : cellsWf lo len cs = true) (h1 : lo' ≤ lo)
    (h2 : len ≤ len') : cellsWf lo' len' cs = true := by
  induction cs generalizing lo lo' with
  | nil => rfl
  | cons c rest ih =>
    obtain ⟨a, d⟩ := c
    simp only [cellsWf, Bool.and_eq_true, decide_eq_true_eq] at h ⊢
    exact ⟨⟨⟨by omega, by omega⟩, h.1.2⟩, ih h.2 le_rfl⟩

/-- Putting a byte keeps the canonical form. -/
theorem cellsWf_putCell {lo len k : Nat} {cs : List Host.Cell} (h : cellsWf lo len cs = true) (hlo : lo ≤ k)
    (hk : k < len) (b : Byte) : cellsWf lo len (putCell cs k b) = true := by
  induction cs generalizing lo with
  | nil => by_cases hb : b = 0#8 <;> simp [putCell, cellsWf, hb, hlo, hk]
  | cons c rest ih =>
    obtain ⟨a, d⟩ := c
    have h' := h
    simp only [cellsWf, Bool.and_eq_true, decide_eq_true_eq] at h
    unfold putCell
    split_ifs with h1 h2 h3 h4
    · exact h'
    · simp only [cellsWf, Bool.and_eq_true, decide_eq_true_eq]
      exact ⟨⟨⟨hlo, hk⟩, h2⟩, ⟨⟨by omega, h.1.1.2⟩, h.1.2⟩, h.2⟩
    · exact cellsWf_widen h.2 (by omega) le_rfl
    · simp only [cellsWf, Bool.and_eq_true, decide_eq_true_eq]
      exact ⟨⟨⟨by omega, hk⟩, h4⟩, cellsWf_widen h.2 (by omega) le_rfl⟩
    · simp only [cellsWf, Bool.and_eq_true, decide_eq_true_eq]
      exact ⟨h.1, ih h.2 (by omega)⟩

/-- Lists in canonical form that give every offset the same byte are the same list. -/
theorem cells_ext {lo len : Nat} {cs ds : List Host.Cell} (hc : cellsWf lo len cs = true) (hd : cellsWf lo len ds = true)
    (h : ∀ k, lookupCell cs k = lookupCell ds k) : cs = ds := by
  induction cs generalizing lo ds with
  | nil =>
    cases ds with
    | nil => rfl
    | cons d rest =>
      obtain ⟨a, b⟩ := d
      simp only [cellsWf, Bool.and_eq_true, decide_eq_true_eq] at hd
      exact absurd (by simpa [lookupCell] using (h a).symm) hd.1.2
  | cons c rest ih =>
    obtain ⟨a, b⟩ := c
    cases ds with
    | nil =>
      simp only [cellsWf, Bool.and_eq_true, decide_eq_true_eq] at hc
      exact absurd (by simpa [lookupCell] using h a) hc.1.2
    | cons d rest' =>
      obtain ⟨a', b'⟩ := d
      simp only [cellsWf, Bool.and_eq_true, decide_eq_true_eq] at hc hd
      have haa : a = a' := by
        rcases Nat.lt_trichotomy a a' with hlt | heq | hgt
        · have h1 := h a
          rw [lookupCell, if_pos rfl, lookupCell, if_neg (by omega), lookupCell_below hd.2 (by omega)] at h1
          exact absurd h1 hc.1.2
        · exact heq
        · have h1 := h a'
          rw [lookupCell, if_neg (by omega), lookupCell_below hc.2 (by omega), lookupCell, if_pos rfl] at h1
          exact absurd h1.symm hd.1.2
      subst haa
      have hbb : b = b' := by simpa [lookupCell] using h a
      subst hbb
      have hr : rest = rest' := by
        refine ih hc.2 hd.2 fun k => ?_
        by_cases hk : a = k
        · subst hk
          rw [lookupCell_below hc.2 (by omega), lookupCell_below hd.2 (by omega)]
        · have h1 := h k
          rwa [lookupCell, if_neg hk, lookupCell, if_neg hk] at h1
      rw [hr]

/-- A read answers a byte exactly below len. -/
theorem Memory.read_eq_none {m : Memory} {k : Nat} : m.read k = none ↔ m.len ≤ k := by
  unfold Memory.read
  split <;> simp <;> omega

theorem Memory.read_lt {m : Memory} {k : Nat} {b : Byte} (h : m.read k = some b) : k < m.len := by
  unfold Memory.read at h
  split at h
  · assumption
  · cases h

@[simp] theorem Memory.bytes_length (m : Memory) : m.bytes.length = m.len := by simp [Memory.bytes]

/-- The byte read at an offset is the one that stands there in the byte sequence. -/
theorem Memory.bytes_getElem? (m : Memory) (k : Nat) : m.bytes[k]? = m.read k := by
  unfold Memory.bytes Memory.read
  by_cases h : k < m.len <;> simp [h]

@[simp] theorem Memory.append_len (m : Memory) (b : Byte) : (m.append b).len = m.len + 1 := rfl

/-- What an append leaves: the old bytes at the old offsets. -/
theorem Memory.append_read_old (m : Memory) (b : Byte) {k : Nat} (h : k < m.len) : (m.append b).read k = m.read k := by
  simp only [Memory.read, Memory.append, if_pos h, if_pos (show k < m.len + 1 by omega),
    lookupCell_putCell_other m.cells b (show k ≠ m.len by omega)]

/-- What an append writes: the new byte at the old len. -/
theorem Memory.append_read_new {m : Memory} (h : m.wf = true) (b : Byte) : (m.append b).read m.len = some b := by
  simp only [Memory.read, Memory.append, if_pos (show m.len < m.len + 1 by omega), lookupCell_putCell_same h]

/-- An append keeps the canonical form. -/
theorem Memory.append_wf {m : Memory} (h : m.wf = true) (b : Byte) : (m.append b).wf = true :=
  cellsWf_putCell (cellsWf_widen h le_rfl (by simp [Memory.append])) (Nat.zero_le _) (by simp [Memory.append]) b

/-- Placing bytes keeps the canonical form. -/
theorem Memory.place_wf {m : Memory} (h : m.wf = true) (k : Nat) (bs : List Byte) : (m.place k bs).wf = true := by
  induction bs generalizing m k with
  | nil => exact h
  | cons b bs ih =>
    refine ih (m := { len := max m.len (k + 1), cells := putCell m.cells k b }) ?_ (k + 1)
    exact cellsWf_putCell (cellsWf_widen h le_rfl (Nat.le_max_left ..)) (Nat.zero_le _)
      (show k < max m.len (k + 1) by omega) b

theorem reset_buf_wf : State.reset.buf.wf = true := rfl

end Sys2Proof.Machine
end

