-- ==== Sys2Proof/Laws/State.lean ====
section
/-! SUPPORT. One lemma per field per update of State, so that no later proof unfolds a record update. -/

namespace Sys2Proof.Machine

variable (s : State)

@[simp] theorem setReg_pc (r : Reg) (v : Word) : (s.setReg r v).pc = s.pc := rfl
@[simp] theorem setReg_buf (r : Reg) (v : Word) : (s.setReg r v).buf = s.buf := rfl
@[simp] theorem setReg_rem (r : Reg) (v : Word) : (s.setReg r v).rem = s.rem := rfl
@[simp] theorem setReg_flag (r : Reg) (v : Word) : (s.setReg r v).flag = s.flag := rfl
@[simp] theorem setReg_fault (r : Reg) (v : Word) : (s.setReg r v).fault = s.fault := rfl
@[simp] theorem setReg_rs (r : Reg) (v : Word) : (s.setReg r v).rs = s.rs := rfl

@[simp] theorem setPc_x (t : Word) : (s.setPc t).x = s.x := rfl
@[simp] theorem setPc_pc (t : Word) : (s.setPc t).pc = t := rfl
@[simp] theorem setPc_buf (t : Word) : (s.setPc t).buf = s.buf := rfl
@[simp] theorem setPc_rem (t : Word) : (s.setPc t).rem = s.rem := rfl
@[simp] theorem setPc_flag (t : Word) : (s.setPc t).flag = s.flag := rfl
@[simp] theorem setPc_fault (t : Word) : (s.setPc t).fault = s.fault := rfl
@[simp] theorem setPc_rs (t : Word) : (s.setPc t).rs = s.rs := rfl
@[simp] theorem setPc_reg (t : Word) (q : Reg) : (s.setPc t).reg q = s.reg q := rfl
@[simp] theorem setPc_ival (t : Word) (q : Reg) : (s.setPc t).ival q = s.ival q := rfl

@[simp] theorem setPcNat_x (n : Nat) : (s.setPcNat n).x = s.x := rfl
@[simp] theorem setPcNat_pc (n : Nat) : (s.setPcNat n).pc = BitVec.ofNat 32 n := rfl
@[simp] theorem setPcNat_buf (n : Nat) : (s.setPcNat n).buf = s.buf := rfl
@[simp] theorem setPcNat_rem (n : Nat) : (s.setPcNat n).rem = s.rem := rfl
@[simp] theorem setPcNat_flag (n : Nat) : (s.setPcNat n).flag = s.flag := rfl
@[simp] theorem setPcNat_fault (n : Nat) : (s.setPcNat n).fault = s.fault := rfl
@[simp] theorem setPcNat_rs (n : Nat) : (s.setPcNat n).rs = s.rs := rfl
@[simp] theorem setPcNat_reg (n : Nat) (q : Reg) : (s.setPcNat n).reg q = s.reg q := rfl
@[simp] theorem setPcNat_ival (n : Nat) (q : Reg) : (s.setPcNat n).ival q = s.ival q := rfl

@[simp] theorem setRem_x (v : Word) : (s.setRem v).x = s.x := rfl
@[simp] theorem setRem_pc (v : Word) : (s.setRem v).pc = s.pc := rfl
@[simp] theorem setRem_buf (v : Word) : (s.setRem v).buf = s.buf := rfl
@[simp] theorem setRem_rem (v : Word) : (s.setRem v).rem = v := rfl
@[simp] theorem setRem_flag (v : Word) : (s.setRem v).flag = s.flag := rfl
@[simp] theorem setRem_fault (v : Word) : (s.setRem v).fault = s.fault := rfl
@[simp] theorem setRem_rs (v : Word) : (s.setRem v).rs = s.rs := rfl
@[simp] theorem setRem_reg (v : Word) (q : Reg) : (s.setRem v).reg q = s.reg q := rfl
@[simp] theorem setRem_ival (v : Word) (q : Reg) : (s.setRem v).ival q = s.ival q := rfl

@[simp] theorem setFlag_x (b : Bool) : (s.setFlag b).x = s.x := rfl
@[simp] theorem setFlag_pc (b : Bool) : (s.setFlag b).pc = s.pc := rfl
@[simp] theorem setFlag_buf (b : Bool) : (s.setFlag b).buf = s.buf := rfl
@[simp] theorem setFlag_rem (b : Bool) : (s.setFlag b).rem = s.rem := rfl
@[simp] theorem setFlag_flag (b : Bool) : (s.setFlag b).flag = b := rfl
@[simp] theorem setFlag_fault (b : Bool) : (s.setFlag b).fault = s.fault := rfl
@[simp] theorem setFlag_rs (b : Bool) : (s.setFlag b).rs = s.rs := rfl
@[simp] theorem setFlag_reg (b : Bool) (q : Reg) : (s.setFlag b).reg q = s.reg q := rfl
@[simp] theorem setFlag_ival (b : Bool) (q : Reg) : (s.setFlag b).ival q = s.ival q := rfl

@[simp] theorem setFault_x (f : Option FaultLatch) : (s.setFault f).x = s.x := rfl
@[simp] theorem setFault_pc (f : Option FaultLatch) : (s.setFault f).pc = s.pc := rfl
@[simp] theorem setFault_buf (f : Option FaultLatch) : (s.setFault f).buf = s.buf := rfl
@[simp] theorem setFault_rem (f : Option FaultLatch) : (s.setFault f).rem = s.rem := rfl
@[simp] theorem setFault_flag (f : Option FaultLatch) : (s.setFault f).flag = s.flag := rfl
@[simp] theorem setFault_fault (f : Option FaultLatch) : (s.setFault f).fault = f := rfl
@[simp] theorem setFault_rs (f : Option FaultLatch) : (s.setFault f).rs = s.rs := rfl
@[simp] theorem setFault_reg (f : Option FaultLatch) (q : Reg) : (s.setFault f).reg q = s.reg q := rfl
@[simp] theorem setFault_ival (f : Option FaultLatch) (q : Reg) : (s.setFault f).ival q = s.ival q := rfl

@[simp] theorem setRs_x (r : RunStatus) : (s.setRs r).x = s.x := rfl
@[simp] theorem setRs_pc (r : RunStatus) : (s.setRs r).pc = s.pc := rfl
@[simp] theorem setRs_buf (r : RunStatus) : (s.setRs r).buf = s.buf := rfl
@[simp] theorem setRs_rem (r : RunStatus) : (s.setRs r).rem = s.rem := rfl
@[simp] theorem setRs_flag (r : RunStatus) : (s.setRs r).flag = s.flag := rfl
@[simp] theorem setRs_fault (r : RunStatus) : (s.setRs r).fault = s.fault := rfl
@[simp] theorem setRs_rs (r : RunStatus) : (s.setRs r).rs = r := rfl
@[simp] theorem setRs_reg (r : RunStatus) (q : Reg) : (s.setRs r).reg q = s.reg q := rfl
@[simp] theorem setRs_ival (r : RunStatus) (q : Reg) : (s.setRs r).ival q = s.ival q := rfl

@[simp] theorem setBuf_x (m : Memory) : (s.setBuf m).x = s.x := rfl
@[simp] theorem setBuf_pc (m : Memory) : (s.setBuf m).pc = s.pc := rfl
@[simp] theorem setBuf_buf (m : Memory) : (s.setBuf m).buf = m := rfl
@[simp] theorem setBuf_rem (m : Memory) : (s.setBuf m).rem = s.rem := rfl
@[simp] theorem setBuf_flag (m : Memory) : (s.setBuf m).flag = s.flag := rfl
@[simp] theorem setBuf_fault (m : Memory) : (s.setBuf m).fault = s.fault := rfl
@[simp] theorem setBuf_rs (m : Memory) : (s.setBuf m).rs = s.rs := rfl
@[simp] theorem setBuf_reg (m : Memory) (q : Reg) : (s.setBuf m).reg q = s.reg q := rfl
@[simp] theorem setBuf_ival (m : Memory) (q : Reg) : (s.setBuf m).ival q = s.ival q := rfl

@[simp] theorem setReg_reg (r q : Reg) (v : Word) : (s.setReg r v).reg q = if q = r then v else s.reg q := by
  simp only [State.setReg, State.reg, Fin.getElem_fin, Vector.getElem_set]
  by_cases h : q = r
  · simp [h]
  · rw [if_neg (fun e => h (Fin.ext e.symm)), if_neg h]

theorem setReg_ival (r q : Reg) (v : Word) : (s.setReg r v).ival q = if q = r then v.toInt else s.ival q := by
  unfold State.ival
  rw [setReg_reg]
  split <;> rfl

/-- Two states with the same registers and the same other fields are the same state. -/
theorem State.ext_reg {s t : State} (hx : ∀ r, s.reg r = t.reg r) (hpc : s.pc = t.pc) (hbuf : s.buf = t.buf)
    (hrem : s.rem = t.rem) (hflag : s.flag = t.flag) (hfault : s.fault = t.fault) (hrs : s.rs = t.rs) : s = t := by
  have hv : s.x = t.x := Vector.ext fun i hi => hx ⟨i, hi⟩
  cases s
  cases t
  simp_all

@[simp] theorem reset_reg (r : Reg) : State.reset.reg r = 0 := by
  simp [State.reset, State.reg]

@[simp] theorem reset_ival (r : Reg) : State.reset.ival r = 0 := by
  simp [State.ival]

end Sys2Proof.Machine
end

