-- ==== Sys2Proof/Laws/Operands.lean ====
section
/-! SUPPORT. What the endings and the fetch primitives can do, each said once. -/

namespace Sys2Proof.Machine

variable {s t : State}

@[simp] theorem proceed_eq_next : proceed s = .next t ↔ s.setRs .running = t := by simp [proceed]

@[simp] theorem halt_eq_next : halt s = .next t ↔ s.setRs .halted = t := by simp [halt]

@[simp] theorem raise_eq_next {kind : FaultKind} {info : Nat} :
    raise s kind info = .next t ↔
      (s.setFault (some { kind := kind, info := info, pc0 := s.pc })).setRs .halted = t := by simp [raise]

/-- A byte inside the buffer is fetched. -/
theorem fetchByte_of_lt {j : Nat} {go : Result} (h : s.pc.toNat + j < s.buf.len) : fetchByte s j go = go :=
  if_neg (by omega)

/-- A byte outside the buffer faults with its offset. -/
theorem fetchByte_of_le {j : Nat} {go : Result} (h : s.buf.len ≤ s.pc.toNat + j) :
    fetchByte s j go = raise s .fetchOutOfBounds (s.pc.toNat + j) :=
  if_pos h

/-- All that fetching a byte can do. -/
theorem fetchByte_cases (s : State) (j : Nat) (go : Result) :
    (s.buf.len ≤ s.pc.toNat + j ∧ fetchByte s j go = raise s .fetchOutOfBounds (s.pc.toNat + j)) ∨
      (s.pc.toNat + j < s.buf.len ∧ fetchByte s j go = go) := by
  rcases Nat.lt_or_ge (s.pc.toNat + j) s.buf.len with h | h
  · exact .inr ⟨h, fetchByte_of_lt h⟩
  · exact .inl ⟨h, fetchByte_of_le h⟩

/-- A register byte inside the buffer that names a register is fetched as that register. -/
theorem fetchReg_of_lt {j : Nat} {b : Byte} {go : Reg → Result} (h : s.pc.toNat + j < s.buf.len) (hb : b.toNat < 32) :
    fetchReg s j b go = go ⟨b.toNat, hb⟩ := by
  rw [fetchReg, fetchByte_of_lt h, dif_pos hb]

/-- A register byte outside the buffer faults with its offset, whatever it would have held. -/
theorem fetchReg_of_le {j : Nat} {b : Byte} {go : Reg → Result} (h : s.buf.len ≤ s.pc.toNat + j) :
    fetchReg s j b go = raise s .fetchOutOfBounds (s.pc.toNat + j) :=
  fetchByte_of_le h

/-- A register byte inside the buffer that names no register faults with its value. -/
theorem fetchReg_of_bad {j : Nat} {b : Byte} {go : Reg → Result} (h : s.pc.toNat + j < s.buf.len)
    (hb : 32 ≤ b.toNat) : fetchReg s j b go = raise s .regIndexOutOfRange b.toNat := by
  rw [fetchReg, fetchByte_of_lt h, dif_neg (by omega)]

/-- All that fetching a register byte can do. -/
theorem fetchReg_cases (s : State) (j : Nat) (b : Byte) (go : Reg → Result) :
    (s.buf.len ≤ s.pc.toNat + j ∧ fetchReg s j b go = raise s .fetchOutOfBounds (s.pc.toNat + j)) ∨
      (s.pc.toNat + j < s.buf.len ∧ 32 ≤ b.toNat ∧ fetchReg s j b go = raise s .regIndexOutOfRange b.toNat) ∨
        (s.pc.toNat + j < s.buf.len ∧ ∃ hb : b.toNat < 32, fetchReg s j b go = go ⟨b.toNat, hb⟩) := by
  rcases Nat.lt_or_ge (s.pc.toNat + j) s.buf.len with h | h
  · rcases Nat.lt_or_ge b.toNat 32 with hb | hb
    · exact .inr (.inr ⟨h, hb, fetchReg_of_lt h hb⟩)
    · exact .inr (.inl ⟨h, hb, fetchReg_of_bad h hb⟩)
  · exact .inl ⟨h, fetchReg_of_le h⟩

/-- `FetchRRR` on three bytes inside the buffer that name registers. -/
theorem fetchRRR_of_lt {a b d : Byte} {go : Reg → Reg → Reg → Result} (h : s.pc.toNat + 3 < s.buf.len)
    (ha : a.toNat < 32) (hb : b.toNat < 32) (hd : d.toNat < 32) :
    fetchRRR s a b d go = go ⟨a.toNat, ha⟩ ⟨b.toNat, hb⟩ ⟨d.toNat, hd⟩ := by
  unfold fetchRRR
  rw [fetchReg_of_lt (by omega) ha, fetchReg_of_lt (by omega) hb, fetchReg_of_lt h hd]

/-- All that `FetchRRR` can do: a fault of s, or the three registers. -/
theorem fetchRRR_cases (s : State) (a b d : Byte) (go : Reg → Reg → Reg → Result) :
    (∃ kind info, fetchRRR s a b d go = raise s kind info) ∨
      (s.pc.toNat + 3 < s.buf.len ∧ ∃ (ha : a.toNat < 32) (hb : b.toNat < 32) (hd : d.toNat < 32),
        fetchRRR s a b d go = go ⟨a.toNat, ha⟩ ⟨b.toNat, hb⟩ ⟨d.toNat, hd⟩) := by
  unfold fetchRRR
  rcases fetchReg_cases s 1 a _ with ⟨_, e⟩ | ⟨_, _, e⟩ | ⟨_, ha, e⟩ <;> rw [e]
  · exact .inl ⟨_, _, rfl⟩
  · exact .inl ⟨_, _, rfl⟩
  rcases fetchReg_cases s 2 b _ with ⟨_, e⟩ | ⟨_, _, e⟩ | ⟨_, hb, e⟩ <;> rw [e]
  · exact .inl ⟨_, _, rfl⟩
  · exact .inl ⟨_, _, rfl⟩
  rcases fetchReg_cases s 3 d _ with ⟨_, e⟩ | ⟨_, _, e⟩ | ⟨h, hd, e⟩ <;> rw [e]
  · exact .inl ⟨_, _, rfl⟩
  · exact .inl ⟨_, _, rfl⟩
  · exact .inr ⟨h, ha, hb, hd, rfl⟩

/-- The operand phase of a comparison on bytes inside the buffer; the pad's value is free. -/
theorem fetchRRPad_of_lt {a b : Byte} {go : Reg → Reg → Result} (h : s.pc.toNat + 3 < s.buf.len)
    (ha : a.toNat < 32) (hb : b.toNat < 32) : fetchRRPad s a b go = go ⟨a.toNat, ha⟩ ⟨b.toNat, hb⟩ := by
  unfold fetchRRPad fetchPad
  rw [fetchReg_of_lt (by omega) ha, fetchReg_of_lt (by omega) hb, fetchByte_of_lt h]

/-- All that the operand phase of a comparison can do: a fault of s, or the two registers. -/
theorem fetchRRPad_cases (s : State) (a b : Byte) (go : Reg → Reg → Result) :
    (∃ kind info, fetchRRPad s a b go = raise s kind info) ∨
      (s.pc.toNat + 3 < s.buf.len ∧ ∃ (ha : a.toNat < 32) (hb : b.toNat < 32),
        fetchRRPad s a b go = go ⟨a.toNat, ha⟩ ⟨b.toNat, hb⟩) := by
  unfold fetchRRPad fetchPad
  rcases fetchReg_cases s 1 a _ with ⟨_, e⟩ | ⟨_, _, e⟩ | ⟨_, ha, e⟩ <;> rw [e]
  · exact .inl ⟨_, _, rfl⟩
  · exact .inl ⟨_, _, rfl⟩
  rcases fetchReg_cases s 2 b _ with ⟨_, e⟩ | ⟨_, _, e⟩ | ⟨_, hb, e⟩ <;> rw [e]
  · exact .inl ⟨_, _, rfl⟩
  · exact .inl ⟨_, _, rfl⟩
  rcases fetchByte_cases s 3 _ with ⟨_, e⟩ | ⟨h, e⟩ <;> rw [e]
  · exact .inl ⟨_, _, rfl⟩
  · exact .inr ⟨h, ha, hb, rfl⟩

/-- All that reading a jump operand can do. -/
theorem jumpOperand_cases (s : State) (r : Reg) (go : Nat → Result) :
    (s.ival r < 0 ∧ jumpOperand s r go = raise s .jumpNegative (bits32 (s.ival r))) ∨
      (0 ≤ s.ival r ∧ jumpOperand s r go = go (s.ival r).toNat) := by
  unfold jumpOperand
  split
  · exact .inl ⟨‹_›, rfl⟩
  · exact .inr ⟨by omega, rfl⟩

end Sys2Proof.Machine
end

