-- ==== Sys2Proof/Laws/Exec.lean ====
section
/-! SUPPORT. What an instruction and a step can do, each said once. -/

namespace Sys2Proof.Machine

/-- A result that takes a fault of s, or goes on in a state that keeps the buffer and the latch. -/
def Plain (s : State) (o : Result) : Prop :=
  (∃ kind info, o = raise s kind info) ∨ ∃ t, o = proceed t ∧ t.buf = s.buf ∧ t.fault = s.fault

theorem plain_raise (s : State) (kind : FaultKind) (info : Nat) : Plain s (raise s kind info) := .inl ⟨kind, info, rfl⟩

theorem plain_proceed {s t : State} (hb : t.buf = s.buf) (hf : t.fault = s.fault) : Plain s (proceed t) :=
  .inr ⟨t, rfl, hb, hf⟩

theorem plain_fetchByte {s : State} {j : Nat} {go : Result} (h : Plain s go) : Plain s (fetchByte s j go) := by
  rcases fetchByte_cases s j go with ⟨_, e⟩ | ⟨_, e⟩ <;> rw [e]
  · exact plain_raise ..
  · exact h

theorem plain_fetchReg {s : State} {j : Nat} {b : Byte} {go : Reg → Result} (h : ∀ r, Plain s (go r)) :
    Plain s (fetchReg s j b go) := by
  rcases fetchReg_cases s j b go with ⟨_, e⟩ | ⟨_, _, e⟩ | ⟨_, _, e⟩ <;> rw [e]
  · exact plain_raise ..
  · exact plain_raise ..
  · exact h _

theorem plain_jumpOperand {s : State} {r : Reg} {go : Nat → Result} (h : ∀ v, Plain s (go v)) :
    Plain s (jumpOperand s r go) := by
  rcases jumpOperand_cases s r go with ⟨_, e⟩ | ⟨_, e⟩ <;> rw [e]
  · exact plain_raise ..
  · exact h _

theorem plain_ite {s : State} {p : Prop} [Decidable p] {a b : Result} (ha : Plain s a) (hb : Plain s b) :
    Plain s (if p then a else b) := by
  split
  · exact ha
  · exact hb

theorem plain_arith (op : Int → Int → Int) (a b d : Byte) (s : State) : Plain s (arith op a b d s) := by
  unfold arith fetchRRR
  refine plain_fetchReg fun _ => plain_fetchReg fun _ => plain_fetchReg fun _ => ?_
  exact plain_proceed rfl rfl

theorem plain_compareRegs (rel : Int → Int → Bool) (a b : Byte) (s : State) : Plain s (compareRegs rel a b s) := by
  unfold compareRegs fetchRRPad fetchPad
  refine plain_fetchReg fun _ => plain_fetchReg fun _ => plain_fetchByte ?_
  exact plain_proceed rfl rfl

theorem plain_execLoad (rd : Byte) (imm : Imm16) (s : State) : Plain s (execLoad rd imm s) := by
  unfold execLoad fetch16
  refine plain_fetchReg fun _ => plain_fetchByte (plain_fetchByte ?_)
  exact plain_proceed rfl rfl

theorem plain_execDiv (a b d : Byte) (s : State) : Plain s (execDiv a b d s) := by
  unfold execDiv fetchRRR
  refine plain_fetchReg fun _ => plain_fetchReg fun _ => plain_fetchReg fun _ => ?_
  refine plain_ite (plain_raise ..) (plain_ite (plain_raise ..) ?_)
  exact plain_proceed rfl rfl

theorem plain_execJmp (t : Byte) (s : State) : Plain s (execJmp t s) := by
  unfold execJmp
  refine plain_fetchReg fun _ => plain_jumpOperand fun _ => ?_
  exact plain_proceed rfl rfl

theorem plain_execJmpf (t : Byte) (s : State) : Plain s (execJmpf t s) := by
  unfold execJmpf
  refine plain_fetchReg fun _ => plain_jumpOperand fun _ => plain_ite (plain_raise ..) ?_
  exact plain_proceed rfl rfl

theorem plain_execJmpb (t : Byte) (s : State) : Plain s (execJmpb t s) := by
  unfold execJmpb
  refine plain_fetchReg fun _ => plain_jumpOperand fun _ => plain_ite (plain_raise ..) ?_
  exact plain_proceed rfl rfl

theorem plain_execJeq (t : Byte) (s : State) : Plain s (execJeq t s) := by
  unfold execJeq fetchPad
  refine plain_fetchReg fun _ => plain_ite (plain_jumpOperand fun _ => ?_) (plain_fetchByte (plain_fetchByte ?_))
  · exact plain_proceed rfl rfl
  · exact plain_proceed rfl rfl

/-- Every instruction takes a fault, goes on in a state that keeps the buffer and the latch, or is HLT or IGL and halts
with pc past the opcode byte. -/
theorem exec_cases (i : Instr) (s : State) :
    Plain s (exec i s) ∨ ((i = .hlt ∨ i = .igl) ∧ exec i s = halt (s.setPcNat (s.pc.toNat + 1))) := by
  cases i with
  | hlt => exact .inr ⟨.inl rfl, rfl⟩
  | igl => exact .inr ⟨.inr rfl, rfl⟩
  | load rd imm => exact .inl (plain_execLoad rd imm s)
  | add a b d => exact .inl (plain_arith _ a b d s)
  | sub a b d => exact .inl (plain_arith _ a b d s)
  | mul a b d => exact .inl (plain_arith _ a b d s)
  | div a b d => exact .inl (plain_execDiv a b d s)
  | jmp t => exact .inl (plain_execJmp t s)
  | jmpf t => exact .inl (plain_execJmpf t s)
  | jmpb t => exact .inl (plain_execJmpb t s)
  | eq a b => exact .inl (plain_compareRegs _ a b s)
  | neq a b => exact .inl (plain_compareRegs _ a b s)
  | gt a b => exact .inl (plain_compareRegs _ a b s)
  | lt a b => exact .inl (plain_compareRegs _ a b s)
  | gtq a b => exact .inl (plain_compareRegs _ a b s)
  | ltq a b => exact .inl (plain_compareRegs _ a b s)
  | jeq t => exact .inl (plain_execJeq t s)

/-- All that a step answering a next state can be: a halt at the buffer end, or one instruction. -/
theorem step_cases {s t : State} (h : step s = .next t) :
    s.fault = none ∧ ((s.buf.len ≤ s.pc.toNat ∧ t = s.setRs .halted) ∨
      (s.pc.toNat < s.buf.len ∧ exec (fetchInstr s) s = .next t)) := by
  unfold step at h
  cases hf : s.fault with
  | some f => rw [hf] at h; cases h
  | none =>
    rw [hf] at h
    by_cases he : s.buf.len ≤ s.pc.toNat
    · simp only [atBufferEnd, he, decide_true, if_true, haltBufferEnd, halt_eq_next] at h
      exact ⟨rfl, .inl ⟨he, h.symm⟩⟩
    · simp only [atBufferEnd, he, decide_false, Bool.false_eq_true, if_false] at h
      exact ⟨rfl, .inr ⟨by omega, h⟩⟩

/-- With no fault latched and pc inside the buffer, a step is one instruction. -/
theorem step_of_lt {s : State} (hf : s.fault = none) (h : s.pc.toNat < s.buf.len) : step s = exec (fetchInstr s) s := by
  unfold step
  rw [hf]
  simp [atBufferEnd, show ¬ s.buf.len ≤ s.pc.toNat by omega]

/-- With no fault latched and pc at or past the buffer end, a step writes rs only. -/
theorem step_of_le {s : State} (hf : s.fault = none) (h : s.buf.len ≤ s.pc.toNat) :
    step s = .next (s.setRs .halted) := by
  unfold step
  rw [hf]
  simp [atBufferEnd, h, haltBufferEnd, halt]

/-- With a fault latched, a step stops with it. -/
theorem step_of_latched {s : State} {f : FaultLatch} (hf : s.fault = some f) :
    step s = .fault (.latched f.kind f.info) := by
  unfold step
  rw [hf]
  rfl

end Sys2Proof.Machine
end

