-- ==== Sys2Proof/Laws/Meanings.lean ====
section
/-! SUPPORT. The meaning of every instruction as one equation over the fetch primitives and the endings, and its effect
where the operand phase is clean. Proofs rewrite with these and do not unfold `exec`. -/

namespace Sys2Proof.Machine

variable (s : State)

theorem exec_hlt : exec .hlt s = halt (s.setPcNat (s.pc.toNat + 1)) := rfl

theorem exec_igl : exec .igl s = halt (s.setPcNat (s.pc.toNat + 1)) := rfl

theorem exec_load (rd : Byte) (imm : Imm16) :
    exec (.load rd imm) s = fetchReg s 1 rd fun d =>
      fetchByte s 2 (fetchByte s 3 (proceed ((s.setReg d (zext32 imm)).setPcNat (s.pc.toNat + 4)))) := rfl

theorem exec_add (a b d : Byte) : exec (.add a b d) s = arith (fun va vb => va + vb) a b d s := rfl

theorem exec_sub (a b d : Byte) : exec (.sub a b d) s = arith (fun va vb => va - vb) a b d s := rfl

theorem exec_mul (a b d : Byte) : exec (.mul a b d) s = arith (fun va vb => va * vb) a b d s := rfl

theorem arith_eq (op : Int → Int → Int) (a b d : Byte) :
    arith op a b d s = fetchReg s 1 a fun ra => fetchReg s 2 b fun rb => fetchReg s 3 d fun rd =>
      proceed ((s.setReg rd (wrap32 (op (s.ival ra) (s.ival rb)))).setPcNat (s.pc.toNat + 4)) := rfl

/-- DIV once its operands are fetched. -/
def divEffect (ra rb rd : Reg) : Result :=
  if s.ival rb = 0 then raise s .divideByZero rb.val
  else if s.ival ra = intMin ∧ s.ival rb = -1 then raise s .divideOverflow rb.val
  else
    proceed (((s.setReg rd (wrap32 (tdiv (s.ival ra) (s.ival rb)))).setRem
      (BitVec.ofNat 32 (bits32 (trem (s.ival ra) (s.ival rb))))).setPcNat (s.pc.toNat + 4))

theorem exec_div (a b d : Byte) :
    exec (.div a b d) s =
      fetchReg s 1 a fun ra => fetchReg s 2 b fun rb => fetchReg s 3 d fun rd => divEffect s ra rb rd := rfl

theorem exec_jmp (t : Byte) :
    exec (.jmp t) s = fetchReg s 1 t fun r => jumpOperand s r fun v => proceed (s.setPcNat v) := rfl

theorem exec_jmpf (t : Byte) :
    exec (.jmpf t) s = fetchReg s 1 t fun r => jumpOperand s r fun v =>
      if 2 ^ 32 ≤ s.pc.toNat + 2 + v then raise s .pcOverflow (bits32 v)
      else proceed (s.setPcNat (s.pc.toNat + 2 + v)) := rfl

theorem exec_jmpb (t : Byte) :
    exec (.jmpb t) s = fetchReg s 1 t fun r => jumpOperand s r fun v =>
      if s.pc.toNat + 2 < v then raise s .pcUnderflow (bits32 v)
      else proceed (s.setPcNat (s.pc.toNat + 2 - v)) := rfl

theorem exec_jeq_taken (t : Byte) (h : s.flag = true) :
    exec (.jeq t) s = fetchReg s 1 t fun r => jumpOperand s r fun v => proceed (s.setPcNat v) := by
  simp only [exec, execJeq, h, if_true]

theorem exec_jeq_not_taken (t : Byte) (h : s.flag = false) :
    exec (.jeq t) s = fetchReg s 1 t fun _ =>
      fetchByte s 2 (fetchByte s 3 (proceed (s.setPcNat (s.pc.toNat + 4)))) := by
  simp only [exec, execJeq, h, Bool.false_eq_true, if_false, fetchPad]

theorem exec_eq (a b : Byte) : exec (.eq a b) s = compareRegs relEq a b s := rfl

theorem exec_neq (a b : Byte) : exec (.neq a b) s = compareRegs relNeq a b s := rfl

theorem exec_gt (a b : Byte) : exec (.gt a b) s = compareRegs relGt a b s := rfl

theorem exec_lt (a b : Byte) : exec (.lt a b) s = compareRegs relLt a b s := rfl

theorem exec_gtq (a b : Byte) : exec (.gtq a b) s = compareRegs relGtq a b s := rfl

theorem exec_ltq (a b : Byte) : exec (.ltq a b) s = compareRegs relLtq a b s := rfl

theorem compareRegs_eq (rel : Int → Int → Bool) (a b : Byte) :
    compareRegs rel a b s = fetchReg s 1 a fun ra => fetchReg s 2 b fun rb => fetchByte s 3
      (proceed ((s.setFlag (rel (s.ival ra) (s.ival rb))).setPcNat (s.pc.toNat + 4))) := rfl

end Sys2Proof.Machine
end

