-- ==== Sys2Proof/Laws/Endings.lean ====
section
/-! SUPPORT. The inversion of `exec`: from the result of an instruction, which of its endings it was. -/

namespace Sys2Proof.Machine

/-- All the results an instruction can have, with the bytes it must have fetched: a fault of s, or the one state in which
only its destination, rem, flag, pc and rs differ from s. -/
inductive Ending (s : State) (i : Instr) : Result → Prop
  | raise (kind : FaultKind) (info : Nat) : Ending s i (raise s kind info)
  | load (rd : Byte) (hd : rd.toNat < 32) (imm : Imm16) (v : Word) : i = .load rd imm → s.pc.toNat + 3 < s.buf.len →
      Ending s i (proceed ((s.setReg ⟨rd.toNat, hd⟩ v).setPcNat (s.pc.toNat + 4)))
  | arith (a b d : Byte) (hd : d.toNat < 32) (v : Word) : i = .add a b d ∨ i = .sub a b d ∨ i = .mul a b d →
      s.pc.toNat + 3 < s.buf.len → Ending s i (proceed ((s.setReg ⟨d.toNat, hd⟩ v).setPcNat (s.pc.toNat + 4)))
  | div (a b d : Byte) (hd : d.toNat < 32) (v w : Word) : i = .div a b d → s.pc.toNat + 3 < s.buf.len →
      Ending s i (proceed (((s.setReg ⟨d.toNat, hd⟩ v).setRem w).setPcNat (s.pc.toNat + 4)))
  | jump (t : Byte) (n : Nat) : i = .jmp t ∨ i = .jmpf t ∨ i = .jmpb t ∨ (i = .jeq t ∧ s.flag = true) →
      s.pc.toNat + 1 < s.buf.len → Ending s i (proceed (s.setPcNat n))
  | fallThrough (t : Byte) : i = .jeq t → s.flag = false → s.pc.toNat + 3 < s.buf.len →
      Ending s i (proceed (s.setPcNat (s.pc.toNat + 4)))
  | compare (f : Bool) : isCompare i = true → (plan s.flag i).length = 3 → s.pc.toNat + 3 < s.buf.len →
      Ending s i (proceed ((s.setFlag f).setPcNat (s.pc.toNat + 4)))
  | halt : i = .hlt ∨ i = .igl → Ending s i (halt (s.setPcNat (s.pc.toNat + 1)))

/-- Every instruction ends in one of the ways of `Ending`. -/
theorem exec_ending (i : Instr) (s : State) : Ending s i (exec i s) := by
  have ar : ∀ f a b d, (i = .add a b d ∨ i = .sub a b d ∨ i = .mul a b d) → Ending s i (arith f a b d s) := by
    intro f a b d hi
    unfold arith
    rcases fetchRRR_cases s a b d _ with ⟨_, _, e⟩ | ⟨h, _, _, hd, e⟩ <;> rw [e]
    · exact .raise ..
    · exact .arith a b d hd _ hi h
  have cm : ∀ f a b, isCompare i = true → (plan s.flag i).length = 3 → Ending s i (compareRegs f a b s) := by
    intro f a b hi hp
    unfold compareRegs
    rcases fetchRRPad_cases s a b _ with ⟨_, _, e⟩ | ⟨h, _, _, e⟩ <;> rw [e]
    · exact .raise ..
    · exact .compare _ hi hp h
  have jo : ∀ t, (i = .jmp t ∨ i = .jmpf t ∨ i = .jmpb t ∨ (i = .jeq t ∧ s.flag = true)) → ∀ g : Nat → Result, (∀ v, s.pc.toNat + 1 < s.buf.len → Ending s i (g v)) →
     Ending s i (fetchReg s 1 t fun r => jumpOperand s r g) := by
    intro t hi g hg
    rcases fetchReg_cases s 1 t _ with ⟨_, e⟩ | ⟨_, _, e⟩ | ⟨h, _, e⟩ <;> rw [e]
    · exact .raise ..
    · exact .raise ..
    rcases jumpOperand_cases s _ g with ⟨_, e⟩ | ⟨_, e⟩ <;> rw [e]
    · exact .raise ..
    · exact hg _ h
  cases i with
  | hlt => exact .halt (.inl rfl)
  | igl => exact .halt (.inr rfl)
  | load rd imm =>
    rw [exec_load]
    rcases fetchReg_cases s 1 rd _ with ⟨_, e⟩ | ⟨_, _, e⟩ | ⟨_, hd, e⟩ <;> rw [e]
    · exact .raise ..
    · exact .raise ..
    rcases fetchByte_cases s 2 _ with ⟨_, e⟩ | ⟨_, e⟩ <;> rw [e]
    · exact .raise ..
    rcases fetchByte_cases s 3 _ with ⟨_, e⟩ | ⟨h, e⟩ <;> rw [e]
    · exact .raise ..
    · exact .load _ hd _ _ rfl h
  | add a b d => exact ar _ _ _ _ (.inl rfl)
  | sub a b d => exact ar _ _ _ _ (.inr (.inl rfl))
  | mul a b d => exact ar _ _ _ _ (.inr (.inr rfl))
  | div a b d =>
    show Ending s _ (fetchRRR s a b d (divEffect s))
    rcases fetchRRR_cases s a b d (divEffect s) with ⟨_, _, e⟩ | ⟨h, _, _, hd, e⟩ <;> rw [e]
    · exact .raise ..
    · unfold divEffect
      split_ifs
      · exact .raise ..
      · exact .raise ..
      · exact .div a b d hd _ _ rfl h
  | jmp t => rw [exec_jmp]; exact jo t (.inl rfl) _ fun v h => .jump t _ (.inl rfl) h
  | jmpf t =>
    rw [exec_jmpf]; refine jo t (.inr (.inl rfl)) _ fun v h => ?_
    split
    · exact .raise ..
    · exact .jump t _ (.inr (.inl rfl)) h
  | jmpb t =>
    rw [exec_jmpb]; refine jo t (.inr (.inr (.inl rfl))) _ fun v h => ?_
    split
    · exact .raise ..
    · exact .jump t _ (.inr (.inr (.inl rfl))) h
  | jeq t =>
    cases hf : s.flag with
    | true => rw [exec_jeq_taken s t hf]; exact jo t (.inr (.inr (.inr ⟨rfl, hf⟩))) _ fun v h => .jump t _ (.inr (.inr (.inr ⟨rfl, hf⟩))) h
    | false =>
      rw [exec_jeq_not_taken s t hf]
      rcases fetchReg_cases s 1 t _ with ⟨_, e⟩ | ⟨_, _, e⟩ | ⟨_, hd, e⟩ <;> rw [e]
      · exact .raise ..
      · exact .raise ..
      rcases fetchByte_cases s 2 _ with ⟨_, e⟩ | ⟨_, e⟩ <;> rw [e]
      · exact .raise ..
      rcases fetchByte_cases s 3 _ with ⟨_, e⟩ | ⟨h, e⟩ <;> rw [e]
      · exact .raise ..
      · exact .fallThrough t rfl hf h
  | eq a b => exact cm _ _ _ rfl rfl
  | neq a b => exact cm _ _ _ rfl rfl
  | gt a b => exact cm _ _ _ rfl rfl
  | lt a b => exact cm _ _ _ rfl rfl
  | gtq a b => exact cm _ _ _ rfl rfl
  | ltq a b => exact cm _ _ _ rfl rfl

/-- The same of an answered next state. -/
theorem ending_of_next {i : Instr} {s t : State} (h : exec i s = .next t) : Ending s i (.next t) := h ▸ exec_ending i s

end Sys2Proof.Machine
end

