-- ==== Sys2Proof/Laws/Host.lean ====
section
/-! SUPPORT. The host's operations and runs, one equation each, so that proofs unfold none of them. -/

namespace Sys2Proof.Machine

theorem core_run_zero (s : State) : Host.Core.run core 0 s = .next s := rfl

theorem core_run_of_next {s t : State} (h : step s = .next t) (n : Nat) :
    Host.Core.run core (n + 1) s = Host.Core.run core n t := by
  have h' : core.step s = .next t := h
  simp only [Host.Core.run, h']

theorem core_run_of_fault {s : State} {f : Fault} (h : step s = .fault f) (n : Nat) :
    Host.Core.run core (n + 1) s = .fault f := by
  have h' : core.step s = .fault f := h
  simp only [Host.Core.run, h']

theorem hostStep_of_next {s t : State} (h : step s = .next t) : hostStep s = some (stepResult s t, t) := by
  unfold hostStep
  rw [h]

theorem hostStep_of_latched {s : State} {f : FaultLatch} (h : s.fault = some f) :
    hostStep s = some (.fault f.kind f.info, s) := by
  unfold hostStep
  rw [step_of_latched h]

theorem hostRun_of_continued {s t : State} (h : hostStep s = some (.continued, t)) (n : Nat) :
    hostRun (n + 1) s = hostRun n t := by
  rw [hostRun, h]

theorem hostRun_of_halts {s t : State} {r : StepResult} (hr : r.halts = true) (h : hostStep s = some (r, t)) (n : Nat) :
    hostRun (n + 1) s = some (r, t) := by
  rw [hostRun, h]
  cases r with
  | continued => cases hr
  | halted _ => rfl
  | fault _ _ => rfl

theorem appendByteCap_of_lt {cap : Nat} {s : State} (h : s.buf.len < cap) (b : Byte) :
    appendByteCap cap b s = (.ok, s.setBuf (s.buf.append b)) := if_pos h

theorem appendByteCap_of_le {cap : Nat} {s : State} (h : cap ≤ s.buf.len) (b : Byte) :
    appendByteCap cap b s = (.full, s) := if_neg (Nat.not_lt.2 h)

@[simp] theorem readFault_eq (s : State) : readFault s = s.fault := rfl

@[simp] theorem readRs_eq (s : State) : readRs s = s.rs := rfl

theorem continuedSteps_zero {s u : State} : ContinuedSteps 0 s u ↔ u = s := by
  constructor
  · intro h
    cases h
    rfl
  · rintro rfl
    exact .zero u

theorem continuedSteps_succ {n : Nat} {s u : State} :
    ContinuedSteps (n + 1) s u ↔ ∃ t, hostStep s = some (.continued, t) ∧ ContinuedSteps n t u := by
  constructor
  · intro h
    cases h with
    | succ h1 h2 => exact ⟨_, h1, h2⟩
  · rintro ⟨t, h1, h2⟩
    exact .succ h1 h2

/-- The capacity of R27. -/
theorem bufCap_bounds : 1 ≤ Config.bufCap ∧ Config.bufCap < 2 ^ 32 := by
  unfold Config.bufCap
  have := Config.bufCapBits.isLt
  split <;> omega

end Sys2Proof.Machine
end

