-- ==== Sys2Proof/Laws/PerInstr.lean ====
section
/-! SUPPORT. Families of per-instruction statements. EncodedInFourBytes: the canonical encoding of every instruction is
its opcode byte and exactly three operand or pad bytes (spec/30_encoding.md R39). -/

namespace Sys2Proof.Laws.EncodedInFourBytes

/-- R39: ILEN = 4, for HLT and IGL too. -/
def Statement (i : Instr) : Prop :=
  ∃ b1 b2 b3 : Byte, encode i = [opcodeByteWith opmap i.opcode, b1, b2, b3]

theorem hlt : Statement .hlt := ⟨_, _, _, rfl⟩
theorem load (rd : Byte) (imm : Imm16) : Statement (.load rd imm) := ⟨_, _, _, rfl⟩
theorem add (a b d : Byte) : Statement (.add a b d) := ⟨_, _, _, rfl⟩
theorem sub (a b d : Byte) : Statement (.sub a b d) := ⟨_, _, _, rfl⟩
theorem mul (a b d : Byte) : Statement (.mul a b d) := ⟨_, _, _, rfl⟩
theorem div (a b d : Byte) : Statement (.div a b d) := ⟨_, _, _, rfl⟩
theorem jmp (t : Byte) : Statement (.jmp t) := ⟨_, _, _, rfl⟩
theorem jmpf (t : Byte) : Statement (.jmpf t) := ⟨_, _, _, rfl⟩
theorem jmpb (t : Byte) : Statement (.jmpb t) := ⟨_, _, _, rfl⟩
theorem eq (a b : Byte) : Statement (.eq a b) := ⟨_, _, _, rfl⟩
theorem neq (a b : Byte) : Statement (.neq a b) := ⟨_, _, _, rfl⟩
theorem gt (a b : Byte) : Statement (.gt a b) := ⟨_, _, _, rfl⟩
theorem lt (a b : Byte) : Statement (.lt a b) := ⟨_, _, _, rfl⟩
theorem gtq (a b : Byte) : Statement (.gtq a b) := ⟨_, _, _, rfl⟩
theorem ltq (a b : Byte) : Statement (.ltq a b) := ⟨_, _, _, rfl⟩
theorem jeq (t : Byte) : Statement (.jeq t) := ⟨_, _, _, rfl⟩
theorem igl : Statement .igl := ⟨_, _, _, rfl⟩

end Sys2Proof.Laws.EncodedInFourBytes
end

