-- ==== Sys2Proof/Tests/Slice0.lean ====
section
/-! SUPPORT. The model's own tests. Expected values are those of spec/95_test_vectors.md (the vector's name stands in the
test's) or are written out from the encodings of spec/30_encoding.md. A `witness` meets the hypotheses of a statement. -/

namespace Sys2Proof.Tests

open Sys2Proof Sys2Proof.Machine

/-! ### Well-formedness: every register field is checked -/

theorem test_wf_accepts_31 : ([.load 31 0, .add 31 31 31, .sub 31 31 31, .mul 31 31 31, .div 31 31 31, .jmp 31, .jmpf 31,
    .jmpb 31, .eq 31 31, .neq 31 31, .gt 31 31, .lt 31 31, .gtq 31 31, .ltq 31 31, .jeq 31, .hlt, .igl] : List Instr).all
    Instr.wf = true := by decide

theorem test_wf_refuses_field1 : ([.load 32 0, .add 32 0 0, .sub 32 0 0, .mul 32 0 0, .div 32 0 0, .jmp 32, .jmpf 32,
    .jmpb 32, .eq 32 0, .neq 32 0, .gt 32 0, .lt 32 0, .gtq 32 0, .ltq 32 0, .jeq 255] : List Instr).any
    Instr.wf = false := by decide

theorem test_wf_refuses_field2 : ([.add 0 32 0, .sub 0 32 0, .mul 0 32 0, .div 0 32 0, .eq 0 32, .neq 0 32, .gt 0 32,
    .lt 0 32, .gtq 0 32, .ltq 0 255] : List Instr).any Instr.wf = false := by decide

theorem test_wf_refuses_field3 : ([.add 0 0 32, .sub 0 0 32, .mul 0 0 32, .div 0 0 255] : List Instr).any
    Instr.wf = false := by decide

/-! ### Decoding: each format's bytes written out from R40, each opcode byte from R43 -/

theorem test_decode_hlt : decode [0, 9, 9, 9] = .ok .hlt [] := by decide
theorem test_decode_load_S1 : decode [1, 0, 1, 244] = .ok (.load 0 500) [] := by decide
theorem test_decode_load_L7 : decode [1, 3, 0x12, 0x34] = .ok (.load 3 0x1234) [] := by decide
theorem test_decode_add : decode [2, 30, 31, 29] = .ok (.add 30 31 29) [] := by decide
theorem test_decode_sub : decode [3, 1, 0, 2] = .ok (.sub 1 0 2) [] := by decide
theorem test_decode_mul : decode [4, 2, 1, 3] = .ok (.mul 2 1 3) [] := by decide
theorem test_decode_div_S2 : decode [5, 0, 1, 2] = .ok (.div 0 1 2) [] := by decide
theorem test_decode_jmp : decode [6, 3, 7, 8] = .ok (.jmp 3) [] := by decide
theorem test_decode_jmpf : decode [7, 1, 0, 0] = .ok (.jmpf 1) [] := by decide
theorem test_decode_jmpb : decode [8, 1, 0, 0] = .ok (.jmpb 1) [] := by decide
theorem test_decode_eq_S3 : decode [9, 0, 1, 0, 9, 0, 1, 0] = .ok (.eq 0 1) [9, 0, 1, 0] := by decide
theorem test_decode_neq : decode [10, 0, 1, 255] = .ok (.neq 0 1) [] := by decide
theorem test_decode_gt : decode [11, 4, 5, 0] = .ok (.gt 4 5) [] := by decide
theorem test_decode_lt : decode [12, 4, 5, 0] = .ok (.lt 4 5) [] := by decide
theorem test_decode_gtq : decode [13, 4, 5, 0] = .ok (.gtq 4 5) [] := by decide
theorem test_decode_ltq : decode [14, 4, 5, 0] = .ok (.ltq 4 5) [] := by decide
theorem test_decode_jeq_Q10 : decode [15, 4, 200, 201] = .ok (.jeq 4) [] := by decide
theorem test_decode_igl : ([16, 31, 32, 127, 128, 254, 255] : List Byte).all
    (fun b => decide (decode [b, 1, 2, 3] = .ok .igl [])) = true := by decide
theorem test_decode_truncated : decode [1, 0, 1] = .truncated 3 ∧ decode [] = .truncated 0 := by decide
theorem test_encode_jeq : encode (.jeq 4) = [15, 4, 0, 0] ∧ encode .igl = [255, 0, 0, 0] := by decide

/-- The table's word is R7's view W, so B0 is its top byte: LOAD r0, 500 is 0x010001F4. -/
theorem test_table_word : decodeTableWord 32 0x010001F4 = some (.load 0 500) ∧
    decodeTableWord 32 0x05000102 = some (.div 0 1 2) ∧ decodeTableWord 32 0xFF000000 = some .igl := by decide

/-! ### Small states -/

/-- The start state of a vector: `p` filler bytes 0, the given bytes after them, pc = p, all else as reset leaves it. -/
def start (p : Nat) (bs : List Byte) : State := (State.reset.setBuf (State.reset.buf.place p bs)).setPcNat p

/-- The same with two registers given signed values. -/
def start2 (p : Nat) (bs : List Byte) (r1 : Reg) (v1 : Int) (r2 : Reg) (v2 : Int) : State :=
  ((start p bs).setReg r1 (wrap32 v1)).setReg r2 (wrap32 v2)

/-- The step answers a next state of which p holds. -/
def ran (s : State) (p : State → Bool) : Bool :=
  match step s with
  | .next t => p t
  | .fault _ => false
  | .refused _ => false

/-- The step is answered `Continued`, leaves pc at n and x[r] at v, and p holds after it. -/
def runs (s : State) (n : Nat) (r : Reg) (v : Int) (p : State → Bool) : Bool :=
  ran s fun t => decide (t.rs = .running ∧ t.fault = none ∧ t.pc.toNat = n ∧ t.ival r = v) && p t

/-- The step raises the fault, and leaves pc, rem, flag and the register r as they were. -/
def raises (s : State) (kind : FaultKind) (info : Nat) (r : Reg) : Bool :=
  ran s fun t => decide (t.fault = some { kind := kind, info := info, pc0 := s.pc } ∧ t.rs = .halted ∧ t.pc = s.pc ∧
    t.rem = s.rem ∧ t.flag = s.flag ∧ t.ival r = s.ival r ∧ t.buf = s.buf)

/-- The host's answer to the step. -/
def answer (s : State) : Option StepResult := (hostStep s).map Prod.fst

/-! ### One step of each instruction -/

theorem test_L5 : runs (start 0 [1, 31, 255, 255]) 4 31 65535 (fun _ => true) = true := by decide
theorem test_L8 : runs (((start 8 [1, 2, 0, 9]).setFlag true).setRem 7) 12 2 9
    (fun t => decide (t.flag = true ∧ t.rem = 7)) = true := by decide
theorem test_A4 : runs (start2 0 [2, 0, 1, 0] 0 7 1 8) 4 0 15 (fun _ => true) = true := by decide
theorem test_A6 : runs (start2 0 [2, 0, 1, 2] 0 (-2147483648) 1 (-1)) 4 2 2147483647 (fun _ => true) = true := by decide
theorem test_B2 : runs (start2 0 [3, 1, 0, 2] 0 10 1 3) 4 2 (-7) (fun _ => true) = true := by decide
theorem test_B5 : runs (start2 0 [3, 0, 1, 2] 0 0 1 (-2147483648)) 4 2 (-2147483648) (fun _ => true) = true := by decide
theorem test_M3 : runs (start2 0 [4, 0, 1, 2] 0 (-6) 1 (-7)) 4 2 42 (fun _ => true) = true := by decide
theorem test_M7 : runs (start2 0 [4, 0, 0, 2] 0 46341 1 0) 4 2 (-2147479015) (fun _ => true) = true := by decide
theorem test_V2 : runs (start2 0 [5, 0, 1, 2] 0 (-17) 1 5) 4 2 (-3) (fun t => decide (t.rem.toNat = 4294967294)) = true := by
  decide
theorem test_V9 : raises (start2 0 [5, 0, 1, 2] 0 (-2147483648) 1 (-1)) .divideOverflow 1 2 = true := by decide
theorem test_J2 : runs (start2 0 [6, 3, 0, 0] 3 100 0 0) 100 3 100 (fun t => decide (answer t = some (.halted .bufferEnd)))
    = true := by decide
theorem test_J6 : raises (start2 0 [6, 3, 0, 0] 3 (-2147483648) 0 0) .jumpNegative 2147483648 3 = true := by decide
theorem test_F3 : runs (start2 28 [7, 1, 0, 0] 1 6 0 0) 36 1 6 (fun _ => true) = true := by decide
theorem test_K2 : runs (start2 8 [8, 1, 0, 0] 1 10 0 0) 0 1 10 (fun _ => true) = true := by decide
theorem test_K3 : raises (start2 8 [8, 1, 0, 0] 1 11 0 0) .pcUnderflow 11 1 = true := by decide

/-- A comparison of x[0] with x[1] that starts with the flag at the opposite of what it must become. -/
def compares (op : Byte) (v w : Int) (f : Bool) : Bool :=
  runs ((start2 0 [op, 0, 1, 0] 0 v 1 w).setFlag (!f)) 4 0 v fun t => decide (t.flag = f ∧ t.rem = 0)

theorem test_T2_T3 : compares 9 5 5 true = true ∧ compares 9 2147483647 (-2147483648) false = true := by decide
theorem test_T4_T5 : compares 10 (-3) 2 true = true ∧ compares 10 5 5 false = true := by decide
theorem test_T8_T9 : compares 11 5 5 false = true ∧ compares 11 2147483647 (-2147483648) true = true := by decide
theorem test_T10_T11 : compares 12 (-3) 2 true = true ∧ compares 12 5 5 false = true := by decide
theorem test_T13_T14 : compares 13 (-3) 2 false = true ∧ compares 13 5 5 true = true := by decide
theorem test_T17_T18 : compares 14 5 5 true = true ∧ compares 14 2147483647 (-2147483648) false = true := by decide
theorem test_T23 : raises (start2 0 [9, 0, 1] 0 1 1 1) .fetchOutOfBounds 3 0 = true := by decide

theorem test_Q1 : runs ((start2 28 [15, 4, 0, 0] 4 36 0 0).setFlag true) 36 4 36 (fun t => t.flag) = true := by decide
theorem test_Q6 : raises (start 0 [15, 4]) .fetchOutOfBounds 2 4 = true := by decide
theorem test_H1 : answer (((start2 0 [0, 0, 0, 0] 1 5 0 0).setFlag true).setRem 3) = some (.halted .hlt) ∧
    ran (((start2 0 [0, 0, 0, 0] 1 5 0 0).setFlag true).setRem 3) (fun t => decide (t.pc = 1 ∧ t.ival 1 = 5 ∧
      t.flag = true ∧ t.rem = 3 ∧ t.rs = .halted)) = true := by decide
theorem test_H6 : answer (start 12 [200, 1, 2, 3]) = some (.halted .igl) ∧
    ran (start 12 [200, 1, 2, 3]) (fun t => decide (t.pc = 13 ∧ t.rs = .halted)) = true := by decide

/-! ### The step, the host's operations, priorities -/

theorem test_S4a : answer State.reset = some (.halted .bufferEnd) := by decide
theorem test_X5 : raises (start 0 [5, 40, 0, 0]) .regIndexOutOfRange 40 0 = true := by decide
theorem test_X7 : raises (start 0 [1, 40]) .regIndexOutOfRange 40 0 = true := by decide
theorem test_X8 : raises (start 0 [5, 0, 1]) .fetchOutOfBounds 3 0 = true := by decide
theorem test_X12 : raises (start 8 [4, 0, 1]) .fetchOutOfBounds 11 0 = true := by decide

/-- X4: the fault is answered again, and `create` clears it. -/
theorem test_X4 : ran (start2 0 [5, 0, 1, 2, 1, 0, 0, 1] 0 10 1 0) (fun t =>
    decide (answer t = some (.fault .divideByZero 1) ∧ (hostStep t).map Prod.snd = some t ∧ (create t).fault = none))
    = true := by decide

/-- X2 and X3: the capacity. -/
theorem test_append : (appendByteCap 4 7 State.reset).2.buf.read 0 = some 7 ∧
    (appendByteCap 4 7 State.reset).2.rs = .idle ∧ (appendByteCap 4 0 (start 0 [1, 0, 0, 9])).1 = .full := by decide

/-- F6: the two sides of PcOverflow, in a buffer that is not written out. -/
theorem test_F6 : raises (start2 2147483647 [7, 1] 1 2147483647 0 0) .pcOverflow 2147483647 1 = true ∧
    runs (start2 2147483647 [7, 1] 1 2147483646 0 0) 4294967295 1 2147483646 (fun _ => true) = true := by decide

/-- The state the host builds for a table word runs it. -/
theorem test_withFetchWord : runs (State.reset.withFetchWord 32 0x010001F4) 4 0 500 (fun _ => true) = true := by decide

theorem test_codes : FaultKind.pcOverflow.code = 7 ∧ FaultKind.fetchOutOfBounds.code = 1 ∧ HaltReason.bufferEnd.code = 0 ∧
    HaltReason.igl.code = 2 := by decide

/-! ### Witnesses: states and operands that meet the hypotheses of the statements, at the boundary of each clause -/

/-- Two maps of D1: the spec's, and one with ADD and SUB exchanged. -/
theorem witness_opcode_maps : opmapValid opmap = true ∧ opmapValid [.hlt, .load, .sub, .add, .mul, .div, .jmp, .jmpf, .jmpb,
    .eq, .neq, .gt, .lt, .gtq, .ltq, .jeq] = true := by decide

/-- Every opcode byte falls under a clause of `OpcodeByteSelectsTheInstruction`, of `PadBytesAreDontCare`, or fetches all
its bytes as operands. -/
theorem witness_opcode_bytes : (0 : Byte).toNat = 0 ∧ (15 : Byte).toNat = 15 ∧ 16 ≤ (16 : Byte).toNat ∧
    16 ≤ (255 : Byte).toNat ∧ (6 : Byte).toNat ∈ [6, 7, 8, 15] ∧ (9 : Byte).toNat ∈ [9, 10, 11, 12, 13, 14] ∧
    (14 : Byte).toNat ∈ [9, 10, 11, 12, 13, 14] ∧ (15 : Byte).toNat ∈ [6, 7, 8, 15] := by decide

theorem witness_StepRunsTheDecodedInstruction : (start 4 [2, 0, 1, 2]).fault = none ∧
    (start 4 [2, 0, 1, 2]).buf.read 4 = some 2 ∧ (start 4 [2, 0, 1, 2]).buf.read 5 = some 0 ∧
    (start 4 [2, 0, 1, 2]).buf.read 6 = some 1 ∧ (start 4 [2, 0, 1, 2]).buf.read 7 = some 2 ∧
    (start 4 [2, 0, 1, 2]).pc.toNat = 4 ∧ decode [2, 0, 1, 2] = .ok (.add 0 1 2) [] := by decide

theorem witness_StepRunsTheEncodedInstruction : (start 4 [2, 0, 1, 2]).fault = none ∧ ∀ j b,
    (encode (.add 0 1 2))[j]? = some b → (start 4 [2, 0, 1, 2]).buf.read ((start 4 [2, 0, 1, 2]).pc.toNat + j) = some b := by
  refine ⟨by decide, fun j b h => ?_⟩
  match j with
  | 0 => exact h
  | 1 => exact h
  | 2 => exact h
  | 3 => exact h
  | n + 4 => cases h

/-- A buffer that ends after the first operand byte: the two missing ones may be anything. -/
theorem witness_OnlyBytesInTheBufferMatter : (start 0 [6, 3]).fault = none ∧ (start 0 [6, 3]).buf.read 0 = some 6 ∧
    (start 0 [6, 3]).buf.read 1 = some 3 ∧ (start 0 [6, 3]).buf.read 2 = none ∧ (start 0 [6, 3]).buf.read 3 = none := by
  decide

/-- The state X4 leaves: a latched fault. -/
def faulted : State := ((start2 0 [5, 0, 1, 2, 1, 0, 0, 1] 0 10 1 0).setFault
  (some { kind := .divideByZero, info := 1, pc0 := 0 })).setRs .halted

/-- The three tests of a step: latched, pc = len, pc = len - 1. -/
theorem witness_StepTestsLatchThenBufferEnd : faulted.fault = some { kind := .divideByZero, info := 1, pc0 := 0 } ∧
    State.reset.fault = none ∧ State.reset.buf.len ≤ State.reset.pc.toNat ∧
    (start 4 [0]).fault = none ∧ (start 4 [0]).pc.toNat < (start 4 [0]).buf.len ∧
    (start 4 [0]).buf.len = (start 4 [0]).pc.toNat + 1 := by decide

/-- A fault that an instruction raises. -/
theorem witness_FaultingInstruction : ∃ t, exec (.div 0 1 2) (start2 0 [5, 0, 1, 2] 0 10 1 0) = .next t ∧
    t.fault = some { kind := .divideByZero, info := 1, pc0 := 0 } ∧
    operandFault (.div 0 1 2) (start2 0 [5, 0, 1, 2] 0 10 1 0) = none ∧
    (start2 0 [5, 0, 1, 2] 0 10 1 0).fault = none := ⟨_, rfl, by decide⟩

/-- A fault of the operand phase, and its two kinds at their boundaries. -/
theorem witness_OperandPhaseFaults : operandFault (.load 32 0) (start 0 [1, 32]) = some (.regIndexOutOfRange, 32) ∧
    operandFault (.load 31 0) (start 0 [1, 31]) = some (.fetchOutOfBounds, 2) ∧
    operandFault (.jeq 4) (start 0 [15, 4, 0]) = some (.fetchOutOfBounds, 3) ∧
    operandFault (.jeq 4) ((start 0 [15, 4]).setFlag true) = none ∧ operandFault .hlt (start 0 [0]) = none := by decide

theorem witness_FaultsRaisedInTheOperandPhase : ∃ t, exec (.load 32 0) (start 0 [1, 32]) = .next t ∧
    t.fault = some { kind := .regIndexOutOfRange, info := 32, pc0 := 0 } ∧ (start 0 [1, 32]).fault = none :=
  ⟨_, rfl, by decide⟩

/-- Steps that answer next states: one for each answer of the host. -/
theorem witness_RunStatusFollowsTheStepResult : (∃ t, step (start 0 [1, 0, 1, 244]) = .next t ∧ t.rs = .running) ∧
    (∃ t, step (start 0 [0]) = .next t ∧ t.rs = .halted) ∧ ∃ t, step (start 0 [1]) = .next t ∧ t.fault ≠ none :=
  ⟨⟨_, rfl, by decide⟩, ⟨_, rfl, by decide⟩, ⟨_, rfl, by decide⟩⟩

/-- Each right-hand side of `OnlyThreeHaltingConditions` holds somewhere. -/
theorem witness_OnlyThreeHaltingConditions : State.reset.buf.len ≤ State.reset.pc.toNat ∧ (start 0 [0]).buf.read 0 = some 0 ∧
    (start 0 [16]).buf.read 0 = some 16 ∧ (start 0 [0]).fault = none ∧ 16 ≤ (16 : Byte).toNat := by decide

/-- An instruction, a taken JEQ and one that falls through, none of which faults. -/
theorem witness_BytesFetchedDecideThePc :
    (∃ t, exec (.add 0 1 2) (start 0 [2, 0, 1, 2]) = .next t ∧ t.fault = none ∧ t.pc = 4) ∧
    (∃ t, exec (.jeq 4) ((start2 8 [15, 4] 4 2 0 0).setFlag true) = .next t ∧ t.fault = none ∧ t.pc = 2) ∧
    (∃ t, exec (.jeq 4) (start 8 [15, 4, 0, 0]) = .next t ∧ t.fault = none ∧ t.pc = 12) ∧
    (start 8 [15, 4, 0, 0]).buf.len = 12 ∧ (start2 8 [15, 4] 4 2 0 0).buf.len = 10 :=
  ⟨⟨_, rfl, by decide⟩, ⟨_, rfl, by decide⟩, ⟨_, rfl, by decide⟩, by decide⟩

/-- The frame's clauses: a register that is no destination, an instruction that is no comparison, one that is no DIV. -/
theorem witness_InstructionFrame : (∃ t, exec (.add 0 1 2) (start2 0 [2, 0, 1, 2] 0 2 1 3) = .next t ∧ t.ival 2 = 5) ∧
    (∀ d ∈ writes (.add 0 1 2), d.toNat ≠ (0 : Reg).val) ∧ isCompare (.add 0 1 2) = false ∧
    (∀ a b d, (Instr.add 0 1 2) ≠ .div a b d) := ⟨⟨_, rfl, by decide⟩, by decide, by decide, fun _ _ _ h => by cases h⟩

/-- Registers an instruction does not read: its destination, and JEQ's own when the flag is false. -/
theorem witness_UnreadRegistersDoNotMatter : (∀ b ∈ reads false (.add 0 1 2), b.toNat ≠ (2 : Reg).val) ∧
    (∀ b ∈ reads false (.jeq 4), b.toNat ≠ (4 : Reg).val) ∧ ∃ t, exec (.jeq 4) (start 0 [15, 4, 0, 0]) = .next t :=
  ⟨by decide, by decide, _, rfl⟩

theorem witness_RemIsWritten : ∃ t, exec (.div 0 1 2) (start2 0 [5, 0, 1, 2] 0 17 1 5) = .next t ∧
    t.rem ≠ State.reset.rem ∧ t.rs = .running := ⟨_, rfl, by decide⟩

theorem witness_FlagIsWritten : (∃ t, exec (.eq 0 1) (start 0 [9, 0, 1, 0]) = .next t ∧ t.flag ≠ State.reset.flag ∧
    t.rs = .running) ∧ isCompare (.eq 0 1) = true ∧ (∀ r, Instr.eq 0 1 ≠ .jeq r) ∧
    (∃ t, exec (.jeq 0) (start 0 [15, 0]) = .next t) ∧ (31 : Byte).toNat < 32 ∧ 3 < (start 0 [15, 0, 0, 0]).buf.len :=
  ⟨⟨_, rfl, by decide⟩, rfl, (fun _ h => by cases h), ⟨_, rfl⟩, by decide⟩

theorem witness_AppendedBytesNeverChange : (start 0 [1, 0, 1, 244]).buf.read 3 = some 244 ∧
    (∃ t, step (start 0 [1, 0, 1, 244]) = .next t) ∧ ∃ t, hostRun 2 (start 0 [1, 0, 1, 244]) = some (.halted .bufferEnd, t) :=
  ⟨by decide, ⟨_, rfl⟩, _, rfl⟩

/-- LOAD: the last offset and register that complete, and each fault at its boundary. -/
theorem witness_Load : (start 0 [1, 31, 0, 0]).pc.toNat + 3 < (start 0 [1, 31, 0, 0]).buf.len ∧ (31 : Byte).toNat < 32 ∧
    (start 0 [1]).buf.len ≤ (start 0 [1]).pc.toNat + 1 ∧
    (start 0 [1, 32]).pc.toNat + 1 < (start 0 [1, 32]).buf.len ∧ 32 ≤ (32 : Byte).toNat ∧
    (start 0 [1, 31]).buf.len ≤ (start 0 [1, 31]).pc.toNat + 2 ∧
    (start 0 [1, 31, 0]).pc.toNat + 2 < (start 0 [1, 31, 0]).buf.len ∧
    (start 0 [1, 31, 0]).buf.len ≤ (start 0 [1, 31, 0]).pc.toNat + 3 ∧
    (start 0 [1, 31, 0, 0]).buf.len < 2 ^ 32 := by decide

/-- The operands of ADD, SUB, MUL, DIV in the shortest buffer that holds the instruction. -/
theorem witness_ThreeRegisters : (start 0 [2, 0, 31, 31]).pc.toNat + 3 < (start 0 [2, 0, 31, 31]).buf.len ∧
    (start 0 [2, 0, 31, 31]).buf.len = 4 ∧ (0 : Byte).toNat < 32 ∧ (31 : Byte).toNat < 32 := by decide

/-- Exact results at both ends of the range: INT_MAX as a sum, INT_MIN as a difference, INT_MIN as a product. -/
theorem witness_ArithmeticIsExactInRange :
    (start2 0 [2, 0, 1, 2] 0 2147483646 1 1).at 0 (by decide) + (start2 0 [2, 0, 1, 2] 0 2147483646 1 1).at 1 (by decide)
      = 2147483647 ∧
    (start2 0 [3, 0, 1, 2] 0 (-2147483647) 1 1).at 0 (by decide)
      - (start2 0 [3, 0, 1, 2] 0 (-2147483647) 1 1).at 1 (by decide) = -2147483648 ∧
    (start2 0 [4, 0, 1, 2] 0 (-1073741824) 1 2).at 0 (by decide)
      * (start2 0 [4, 0, 1, 2] 0 (-1073741824) 1 2).at 1 (by decide) = -2147483648 := by decide

/-- DIV's three clauses: a zero divisor, INT_MIN by -1, and neither (INT_MIN by 2). -/
theorem witness_Div : (start2 0 [5, 0, 1, 2] 0 10 1 0).at 1 (by decide) = 0 ∧
    (start2 0 [5, 0, 1, 2] 0 (-2147483648) 1 (-1)).at 0 (by decide) = -2147483648 ∧
    (start2 0 [5, 0, 1, 2] 0 (-2147483648) 1 (-1)).at 1 (by decide) = -1 ∧
    (start2 0 [5, 0, 1, 2] 0 (-2147483648) 1 2).at 1 (by decide) ≠ 0 ∧
    ¬((start2 0 [5, 0, 1, 2] 0 (-2147483648) 1 2).at 0 (by decide) = -2147483648 ∧
      (start2 0 [5, 0, 1, 2] 0 (-2147483648) 1 2).at 1 (by decide) = -1) := by decide

/-- JMP's two clauses, at 0 and at -1, in the shortest buffer. -/
theorem witness_Jmp : (start 0 [6, 3]).at 3 (by decide) = (0 : Nat) ∧ (start2 0 [6, 3] 3 (-1) 0 0).at 3 (by decide) < 0 ∧
    (start 0 [6, 3]).pc.toNat + 1 < (start 0 [6, 3]).buf.len := by decide

/-- JMPF's three clauses: the last target that fits, the first that does not, a negative distance. -/
theorem witness_Jmpf : (start2 2147483647 [7, 1] 1 2147483646 0 0).pc.toNat + 2 + 2147483646 < 2 ^ 32 ∧
    (start2 2147483647 [7, 1] 1 2147483646 0 0).at 1 (by decide) = (2147483646 : Nat) ∧
    2 ^ 32 ≤ (start2 2147483647 [7, 1] 1 2147483647 0 0).pc.toNat + 2 + 2147483647 ∧
    (start2 2147483647 [7, 1] 1 2147483647 0 0).at 1 (by decide) = (2147483647 : Nat) ∧
    (start2 2147483647 [7, 1] 1 2147483647 0 0).pc.toNat + 1 < (start2 2147483647 [7, 1] 1 2147483647 0 0).buf.len ∧
    (start2 0 [7, 1] 1 (-1) 0 0).at 1 (by decide) < 0 := by decide

/-- JMPB's three clauses: to offset 0, one too far, a negative distance. -/
theorem witness_Jmpb : (start2 8 [8, 1] 1 10 0 0).at 1 (by decide) = (10 : Nat) ∧
    10 ≤ (start2 8 [8, 1] 1 10 0 0).pc.toNat + 2 ∧ (start2 8 [8, 1] 1 11 0 0).at 1 (by decide) = (11 : Nat) ∧
    (start2 8 [8, 1] 1 11 0 0).pc.toNat + 2 < 11 ∧ (start2 8 [8, 1] 1 (-1) 0 0).at 1 (by decide) < 0 ∧
    (start2 8 [8, 1] 1 11 0 0).pc.toNat + 1 < (start2 8 [8, 1] 1 11 0 0).buf.len ∧
    (start2 8 [8, 1] 1 11 0 0).buf.len < 2 ^ 32 := by decide

/-- JEQ's six clauses: taken, taken and negative, not taken, each pad missing, a byte that is no register. -/
theorem witness_Jeq : ((start 0 [15, 4]).setFlag true).at 4 (by decide) = (0 : Nat) ∧
    ((start2 0 [15, 4] 4 (-1) 0 0).setFlag true).at 4 (by decide) < 0 ∧ ((start 0 [15, 4]).setFlag true).flag = true ∧
    (start 0 [15, 4, 0, 0]).flag = false ∧ (start 0 [15, 4, 0, 0]).pc.toNat + 3 < (start 0 [15, 4, 0, 0]).buf.len ∧
    (start 0 [15, 4]).buf.len ≤ (start 0 [15, 4]).pc.toNat + 2 ∧
    (start 0 [15, 4, 0]).pc.toNat + 2 < (start 0 [15, 4, 0]).buf.len ∧
    (start 0 [15, 4, 0]).buf.len ≤ (start 0 [15, 4, 0]).pc.toNat + 3 ∧ 32 ≤ (32 : Byte).toNat ∧
    (start 0 [15, 4]).pc.toNat + 1 < (start 0 [15, 4]).buf.len := by decide

/-- The comparisons' clauses: the shortest buffer that completes, and each byte missing or no register. -/
theorem witness_Comparisons : (start 0 [9, 0, 31, 0]).pc.toNat + 3 < (start 0 [9, 0, 31, 0]).buf.len ∧
    (start 0 [9]).buf.len ≤ (start 0 [9]).pc.toNat + 1 ∧ (start 0 [9, 32]).pc.toNat + 1 < (start 0 [9, 32]).buf.len ∧
    (start 0 [9, 0]).buf.len ≤ (start 0 [9, 0]).pc.toNat + 2 ∧
    (start 0 [9, 0, 32]).pc.toNat + 2 < (start 0 [9, 0, 32]).buf.len ∧
    (start 0 [9, 0, 31]).buf.len ≤ (start 0 [9, 0, 31]).pc.toNat + 3 ∧ 32 ≤ (32 : Byte).toNat ∧ (31 : Byte).toNat < 32 ∧
    (start 0 [9, 0, 31, 0]).buf.len < 2 ^ 32 := by decide

/-- HLT and IGL in a buffer of one byte. -/
theorem witness_Halts : (start 0 [0]).pc.toNat < (start 0 [0]).buf.len ∧ (start 0 [0]).fault = none ∧
    (start 0 [0]).buf.read (start 0 [0]).pc.toNat = some 0 ∧ (start 0 [16]).pc.toNat < (start 0 [16]).buf.len ∧
    (start 0 [16]).fault = none ∧ (start 0 [16]).buf.read (start 0 [16]).pc.toNat = some 16 ∧
    (start 0 [16]).buf.len < 2 ^ 32 ∧ 16 ≤ (16 : Byte).toNat := by decide

/-- Reset meets the invariant, and so does the state after a program's first byte, which a step then runs. -/
theorem witness_StepKeepsTheInvariant : (appendByte 1 State.reset).2.Inv ∧
    ∃ t, step (appendByte 1 State.reset).2 = .next t ∧ t.fault = some { kind := .fetchOutOfBounds, info := 1, pc0 := 0 } := by
  have h : (appendByte 1 State.reset).2 = start 0 [1] := by
    rw [appendByte, appendByteCap_of_lt (Nat.lt_of_lt_of_le (by decide) bufCap_bounds.1)]
    rfl
  rw [h]
  exact ⟨⟨by decide, bufCap_bounds.1, (fun f hf => by cases hf), fun _ => rfl⟩, _, rfl, by decide⟩

theorem witness_Reachable : Reachable (appendByte 1 State.reset).2 := .append 1 .reset

/-- A full buffer and one with a byte to spare. -/
theorem witness_AppendGrowsTheBufferByOneByte : (start 0 [1, 0, 0, 9]).buf.wf = true ∧ 4 ≤ (start 0 [1, 0, 0, 9]).buf.len ∧
    (start 0 [1, 0, 0, 9]).buf.len < 5 ∧ ([1, 0, 0, 9] : List Byte).length ≤ 4 := by decide

theorem witness_CanonicalBuffers : (start 0 [1, 0]).buf.wf = true ∧ (State.reset.buf.append 1 |>.append 0).wf = true ∧
    (start 0 [1, 0]).buf.bytes = (State.reset.buf.append 1 |>.append 0).bytes := by decide

/-- pc at len, and one beyond it. -/
theorem witness_AppendedByteIsFetchable : State.reset.pc.toNat = State.reset.buf.len ∧ State.reset.buf.wf = true ∧
    State.reset.fault = none ∧ State.reset.buf.len < 1 ∧
    (State.reset.setPcNat 1).buf.len < (State.reset.setPcNat 1).pc.toNat := by decide

theorem witness_SteppingPastHlt : (start 0 [0, 0, 0, 0]).fault = none ∧ (start 0 [0, 0, 0, 0]).buf.len < 2 ^ 32 ∧
    ∀ j, j < 4 → (start 0 [0, 0, 0, 0]).buf.read ((start 0 [0, 0, 0, 0]).pc.toNat + j) = some 0 := by decide

/-- J1: a JMP to its own offset. -/
theorem witness_JumpToSelf : (start 0 [6, 0]).fault = none ∧ (start 0 [6, 0]).buf.read (start 0 [6, 0]).pc.toNat = some 6 ∧
    (start 0 [6, 0]).buf.read ((start 0 [6, 0]).pc.toNat + 1) = some (.ofNat 8 (0 : Reg)) ∧
    (start 0 [6, 0]).ival 0 = (start 0 [6, 0]).pc.toNat := by decide

/-- H9. -/
theorem witness_RunReturns : ∃ t, RunReturns State.reset (.halted .bufferEnd) t := ⟨_, 1, rfl⟩

/-- One step is answered `Continued`, and the next one ends the run. -/
theorem witness_ContinuedSteps : ∃ u t, ContinuedSteps 1 (start 0 [1, 0, 1, 244]) u ∧
    hostStep u = some (.halted .bufferEnd, t) := ⟨_, _, .succ rfl (.zero _), rfl⟩

/-- J1: some run hangs, so its every number of steps is `Continued`; here the first two. -/
theorem witness_ContinuedStepsOfAHang : ∃ u, ContinuedSteps 2 (start 0 [6, 0]) u := ⟨_, .succ rfl (.succ rfl (.zero _))⟩

/-- X4 read by the host: the latch whole, and rs; after reset rs is told apart from Running. -/
theorem test_accessors : readFault faulted = some { kind := .divideByZero, info := 1, pc0 := 0 } ∧
    readRs faulted = .halted ∧ readRs State.reset = .idle ∧ readFault State.reset = none ∧
    readBuffer 3 (start 0 [1, 0, 1, 244]) = some 244 := by decide

theorem witness_Accessors : 32 ≤ 32 ∧ 0 < lenOut (start 0 [1]) ∧ lenOut (start 0 [1]) ≤ 1 := by decide

end Sys2Proof.Tests
end

/-! ### The state an instruction, a step and a run leave unchanged (spec/10_state.md R12, R15 to R18) -/

namespace Sys2Proof.Machine

variable {i : Instr} {s t : State}

/-- No instruction writes the buffer: there is no store (spec/10_state.md R12). -/
theorem exec_buf (h : exec i s = .next t) : t.buf = s.buf := by
  rcases exec_cases i s with (⟨kind, info, e⟩ | ⟨u, e, hbuf, -⟩) | ⟨-, e⟩ <;> rw [e] at h
  · rw [← raise_eq_next.1 h]; rfl
  · rw [← proceed_eq_next.1 h]; exact hbuf
  · rw [← halt_eq_next.1 h]; rfl

/-- The latch is written only by taking a fault, which also halts (spec/60_exceptions.md R94). -/
theorem exec_fault (h : exec i s = .next t) : t.fault = s.fault ∨ t.rs = .halted ∧ ∃ f, t.fault = some f := by
  rcases exec_cases i s with (⟨kind, info, e⟩ | ⟨u, e, -, hfault⟩) | ⟨-, e⟩ <;> rw [e] at h
  · rw [← raise_eq_next.1 h]; exact .inr ⟨rfl, _, rfl⟩
  · rw [← proceed_eq_next.1 h]; exact .inl hfault
  · rw [← halt_eq_next.1 h]; exact .inl rfl

/-- What the instruction may not write, as R12, R16 and R17 allot the registers, the flag and rem to the instructions:
t differs from s in none of it. -/
structure KeepsUnwritten (i : Instr) (s t : State) : Prop where
  ival : ∀ r : Reg, (∀ d ∈ writes i, d.toNat ≠ r.val) → t.ival r = s.ival r
  flag : isCompare i = false → t.flag = s.flag
  rem  : (∀ a b d, i ≠ .div a b d) → t.rem = s.rem

namespace KeepsUnwritten

theorem refl : KeepsUnwritten i s s := ⟨fun _ _ => rfl, fun _ => rfl, fun _ => rfl⟩

theorem setRs (h : KeepsUnwritten i s t) (r : RunStatus) : KeepsUnwritten i s (t.setRs r) := ⟨h.ival, h.flag, h.rem⟩

theorem setPcNat (h : KeepsUnwritten i s t) (n : Nat) : KeepsUnwritten i s (t.setPcNat n) := ⟨h.ival, h.flag, h.rem⟩

theorem setFault (h : KeepsUnwritten i s t) (f : Option FaultLatch) : KeepsUnwritten i s (t.setFault f) :=
  ⟨h.ival, h.flag, h.rem⟩

/-- Only the destination may be written among the registers. -/
theorem setReg (h : KeepsUnwritten i s t) {d : Byte} (hd : d.toNat < 32) (hw : d ∈ writes i) (v : Word) :
    KeepsUnwritten i s (t.setReg ⟨d.toNat, hd⟩ v) where
  ival r hr := by
    have hne : r ≠ ⟨d.toNat, hd⟩ := fun e => hr d hw (congrArg Fin.val e).symm
    rw [setReg_ival, if_neg hne]
    exact h.ival r hr
  flag := h.flag
  rem := h.rem

/-- Only a comparison may write the flag. -/
theorem setFlag (h : KeepsUnwritten i s t) (hc : isCompare i = true) (b : Bool) : KeepsUnwritten i s (t.setFlag b) :=
  ⟨h.ival, fun hn => absurd (hn.symm.trans hc) Bool.false_ne_true, h.rem⟩

/-- Only DIV may write rem. -/
theorem setRem (h : KeepsUnwritten i s t) {a b d : Byte} (hi : i = .div a b d) (v : Word) :
    KeepsUnwritten i s (t.setRem v) :=
  ⟨h.ival, h.flag, fun hn => absurd hi (hn a b d)⟩

end KeepsUnwritten

/-- Each ending of an instruction makes only the writes that are its own. -/
theorem exec_keepsUnwritten (h : exec i s = .next t) : KeepsUnwritten i s t := by
  have hs : KeepsUnwritten i s s := .refl
  cases ending_of_next h with
  | raise kind info => exact (hs.setFault _).setRs _
  | load rd hd imm v hi =>
    have hw : rd ∈ writes i := by simp [hi, writes]
    exact ((hs.setReg hd hw v).setPcNat _).setRs _
  | arith a b d hd v hi =>
    have hw : d ∈ writes i := by rcases hi with rfl | rfl | rfl <;> simp [writes]
    exact ((hs.setReg hd hw v).setPcNat _).setRs _
  | div a b d hd v w hi =>
    have hw : d ∈ writes i := by simp [hi, writes]
    exact (((hs.setReg hd hw v).setRem hi w).setPcNat _).setRs _
  | jump _ n => exact (hs.setPcNat n).setRs _
  | fallThrough => exact (hs.setPcNat _).setRs _
  | compare f hc => exact ((hs.setFlag hc f).setPcNat _).setRs _
  | halt => exact (hs.setPcNat _).setRs _

/-- Settles O19: the buffer and the latch by `exec_cases`, the rest by the writes of each ending. -/
theorem instructionFrame : Obligations.InstructionFrame := by
  intro i s t h
  obtain ⟨hival, hflag, hrem⟩ := exec_keepsUnwritten h
  have hbuf := exec_buf h
  exact ⟨hival, hflag, hrem, fun k => by rw [hbuf], by rw [hbuf], exec_fault h⟩

/-- A step writes no byte of the buffer: at its end only rs is written, before it one instruction runs. -/
theorem step_buf (h : step s = .next t) : t.buf = s.buf := by
  obtain ⟨-, ⟨-, rfl⟩ | ⟨-, hexec⟩⟩ := step_cases h
  · rfl
  · exact exec_buf hexec

/-- What the host is answered by a step comes with the step's next state, or with the state as it was when the step is
refused (spec/40_step_cycle.md R56). -/
theorem hostStep_cases {r : StepResult} (h : hostStep s = some (r, t)) : step s = .next t ∨ t = s := by
  unfold hostStep at h
  split at h
  · cases h; exact .inl ‹_›
  · cases h; exact .inr rfl
  · cases h

theorem hostStep_buf {r : StepResult} (h : hostStep s = some (r, t)) : t.buf = s.buf := by
  rcases hostStep_cases h with hstep | rfl
  · exact step_buf hstep
  · rfl

/-- A run that returns has either ended with its first step, or gone on from the state after it. -/
theorem hostRun_succ_cases {n : Nat} {r : StepResult} (h : hostRun (n + 1) s = some (r, t)) :
    hostStep s = some (r, t) ∨ ∃ u, hostStep s = some (.continued, u) ∧ hostRun n u = some (r, t) := by
  unfold hostRun at h
  split at h
  · cases h
  · exact .inr ⟨_, ‹_›, h⟩
  · cases h; exact .inl ‹_›

theorem hostRun_buf {n : Nat} {r : StepResult} (h : hostRun n s = some (r, t)) : t.buf = s.buf := by
  induction n generalizing s with
  | zero => cases h
  | succ n ih =>
    rcases hostRun_succ_cases h with hstop | ⟨u, hstep, hrun⟩
    · exact hostStep_buf hstop
    · exact (ih hrun).trans (hostStep_buf hstep)

/-- An append keeps every byte that is already in the buffer, whether it is accepted or answered `full`. -/
theorem appendByteCap_read_old {k : Nat} (hk : k < s.buf.len) (cap : Nat) (c : Byte) :
    (appendByteCap cap c s).2.buf.read k = s.buf.read k := by
  rcases Nat.lt_or_ge s.buf.len cap with hroom | hfull
  · rw [appendByteCap_of_lt hroom]; exact Memory.append_read_old s.buf c hk
  · rw [appendByteCap_of_le hfull]

/-- Settles O23: steps and runs write no byte of the buffer, and an append writes only past its end. -/
theorem appendedBytesNeverChange : Obligations.AppendedBytesNeverChange := by
  intro s k b hread
  refine ⟨fun t hstep => ?_, fun c => ?_, fun fuel r t hrun => ?_⟩
  · rw [step_buf hstep, hread]
  · exact (appendByteCap_read_old (Memory.read_lt hread) _ c).trans hread
  · rw [hostRun_buf hrun, hread]

end Sys2Proof.Machine

/-! ### The byte an append makes fetchable (spec/20_memory.md R37, spec/40_step_cycle.md R60) -/

namespace Sys2Proof.Machine

variable {s : State}

/-- The byte appended at pc is the opcode byte of the instruction that then stands there; past the new end the decoder
sees its filler lanes. -/
theorem fetchInstr_append_at_pc (hwf : s.buf.wf = true) (hpc : s.pc.toNat = s.buf.len) (b : Byte) :
    ∃ b1 b2 b3, fetchInstr (s.setBuf (s.buf.append b)) = decode4 b b1 b2 b3 := by
  have hlane : lane (s.setBuf (s.buf.append b)) 0 = b := by
    simp [lane, hpc, Memory.append_read_new hwf]
  exact ⟨_, _, _, by rw [fetchInstr, hlane]⟩

/-- At or past the buffer end, with no fault latched, the host is answered `Halted(BufferEnd)`. -/
theorem hostStep_of_le (hf : s.fault = none) (h : s.buf.len ≤ s.pc.toNat) :
    hostStep s = some (.halted .bufferEnd, s.setRs .halted) := by
  have hresult : stepResult s (s.setRs .halted) = .halted .bufferEnd := by
    simp [stepResult, haltReason, atBufferEnd, hf, h]
  rw [hostStep_of_next (step_of_le hf h), hresult]

/-- Settles O46: an accepted append moves len past a pc that stood at it, and no further than to one that stood beyond. -/
theorem appendedByteIsFetchableAtOnce : Obligations.AppendedByteIsFetchableAtOnce := by
  intro cap b s hwf hf hroom
  rw [appendByteCap_of_lt hroom]
  refine ⟨fun hpc => ?_, fun hpc => ?_⟩
  · have hinside : s.pc.toNat < (s.buf.append b).len := by rw [Memory.append_len]; omega
    obtain ⟨b1, b2, b3, hinstr⟩ := fetchInstr_append_at_pc hwf hpc b
    have hstep := step_of_lt (s := s.setBuf (s.buf.append b)) hf hinside
    exact ⟨b1, b2, b3, by rw [hstep, hinstr]⟩
  · have hend : (s.buf.append b).len ≤ s.pc.toNat := hpc
    exact ⟨_, hostStep_of_le (s := s.setBuf (s.buf.append b)) hf hend⟩

end Sys2Proof.Machine

/-! ### The illegal opcode bytes (spec/30_encoding.md R45) -/

namespace Sys2Proof.Machine

/-- A map that leaves IGL out reaches it only by the default past the map's last entry. -/
theorem decodeOpcodeWith_eq_igl_iff {m : List Opcode} (hm : .igl ∉ m) (b : Byte) :
    decodeOpcodeWith m b = .igl ↔ m.length ≤ b.toNat := by
  unfold decodeOpcodeWith
  rcases Nat.lt_or_ge b.toNat m.length with hin | hout
  · have hne : m[b.toNat] ≠ .igl := fun e => hm (e ▸ List.getElem_mem hin)
    simp [hin, hne]
  · simp [hout]

/-- Only the opcode IGL is assembled to the instruction IGL, whatever the operand bytes. -/
theorem assemble_eq_igl_iff (op : Opcode) (b1 b2 b3 : Byte) : assemble op b1 b2 b3 = .igl ↔ op = .igl := by
  cases op <;> simp [assemble]

theorem decode4_eq_igl_iff (b0 b1 b2 b3 : Byte) : decode4 b0 b1 b2 b3 = .igl ↔ 16 ≤ b0.toNat :=
  (assemble_eq_igl_iff ..).trans (decodeOpcodeWith_eq_igl_iff (m := opmap) (by decide) b0)

/-- Settles O3: the opcode map has sixteen entries and IGL is none of them; HLT and IGL have one meaning. -/
theorem illegalOpcodesAreOneInstruction : Obligations.IllegalOpcodesAreOneInstruction :=
  ⟨decode4_eq_igl_iff, by decide, fun s => (exec_igl s).trans (exec_hlt s).symm⟩

end Sys2Proof.Machine

/-! ### The bytes fetched and pc (spec/30_encoding.md R47) -/

namespace Sys2Proof.Machine

variable {i : Instr} {s t : State}

/-- An offset that fits PCW bits is the one pc then holds. -/
theorem setPcNat_pc_toNat {n : Nat} (h : n < 2 ^ 32) : (s.setPcNat n).pc.toNat = n := by
  rw [setPcNat_pc, BitVec.toNat_ofNat, Nat.mod_eq_of_lt h]

/-- The bytes that i fetches in s stand in the buffer, and t has pc just past them unless i is a taken jump. -/
structure FetchedAll (i : Instr) (s t : State) : Prop where
  inBuffer : s.pc.toNat + (plan s.flag i).length < s.buf.len
  pastLast : isJump i = false ∨ ((∃ r, i = .jeq r) ∧ s.flag = false) →
    t.pc.toNat = s.pc.toNat + 1 + (plan s.flag i).length

/-- All n operand bytes fetched, and pc moved past them: what every ending but a fault and a taken jump does. The
capacity (spec/20_memory.md R27) keeps the new pc within PCW bits. -/
theorem fetchedAll_of_pc {n : Nat} (hcap : s.buf.len < 2 ^ 32) (hplan : (plan s.flag i).length = n)
    (hin : s.pc.toNat + n < s.buf.len) (hpc : t.pc = (s.setPcNat (s.pc.toNat + 1 + n)).pc) : FetchedAll i s t where
  inBuffer := hplan.symm ▸ hin
  pastLast _ := by rw [hpc, setPcNat_pc_toNat (by omega), hplan]

/-- A taken jump fetches its register byte alone, and is none of the instructions whose pc the bytes fetched decide. -/
theorem fetchedAll_of_taken {r : Byte} (hin : s.pc.toNat + 1 < s.buf.len)
    (htaken : i = .jmp r ∨ i = .jmpf r ∨ i = .jmpb r ∨ (i = .jeq r ∧ s.flag = true)) : FetchedAll i s t := by
  rcases htaken with rfl | rfl | rfl | ⟨rfl, hflag⟩
  · exact ⟨hin, by simp [isJump]⟩
  · exact ⟨hin, by simp [isJump]⟩
  · exact ⟨hin, by simp [isJump]⟩
  · exact ⟨by rw [hflag]; exact hin, by simp [isJump, hflag]⟩

/-- Each ending but a fault has fetched the instruction's plan. -/
theorem exec_fetchedAll (hcap : s.buf.len < 2 ^ 32) (hlt : s.pc.toNat < s.buf.len) (h : exec i s = .next t)
    (hnone : t.fault = none) : FetchedAll i s t := by
  cases ending_of_next h with
  | raise kind info => cases hnone
  | load rd hd imm v hi hin => exact fetchedAll_of_pc hcap (by rw [hi]; rfl) hin rfl
  | arith a b d hd v hi hin =>
    have hplan : (plan s.flag i).length = 3 := by rcases hi with rfl | rfl | rfl <;> rfl
    exact fetchedAll_of_pc hcap hplan hin rfl
  | div a b d hd v w hi hin => exact fetchedAll_of_pc hcap (by rw [hi]; rfl) hin rfl
  | jump r n hi hin => exact fetchedAll_of_taken hin hi
  | fallThrough r hi hflag hin => exact fetchedAll_of_pc hcap (by rw [hi, hflag]; rfl) hin rfl
  | compare f hc hplan hin => exact fetchedAll_of_pc hcap hplan hin rfl
  | halt hi =>
    have hplan : (plan s.flag i).length = 0 := by rcases hi with rfl | rfl <;> rfl
    exact fetchedAll_of_pc hcap hplan hlt rfl

/-- Settles O18: the two clauses of `FetchedAll`, which every ending but a fault brings about. -/
theorem bytesFetchedDecideThePc : Obligations.BytesFetchedDecideThePc := by
  intro i s t hcap hlt h hnone
  obtain ⟨hin, hpast⟩ := exec_fetchedAll hcap hlt h hnone
  exact ⟨hin, hpast⟩

end Sys2Proof.Machine

/-! ### The tests before a fetch, and the instruction fetched (spec/40_step_cycle.md R53, R54) -/

namespace Sys2Proof.Machine

variable {s t : State}

/-- A lane inside the buffer carries the byte that stands there. -/
theorem lane_of_read {j : Nat} {b : Byte} (h : s.buf.read (s.pc.toNat + j) = some b) : lane s j = b := by
  rw [lane, h, Option.getD_some]

theorem fetchInstr_of_read {b0 b1 b2 b3 : Byte} (h0 : s.buf.read s.pc.toNat = some b0)
    (h1 : s.buf.read (s.pc.toNat + 1) = some b1) (h2 : s.buf.read (s.pc.toNat + 2) = some b2)
    (h3 : s.buf.read (s.pc.toNat + 3) = some b3) : fetchInstr s = decode4 b0 b1 b2 b3 := by
  rw [fetchInstr, lane_of_read (j := 0) h0, lane_of_read h1, lane_of_read h2, lane_of_read h3]

/-- On four bytes the stream decoder and `decode4` agree. -/
theorem decode_four (b0 b1 b2 b3 : Byte) : decode [b0, b1, b2, b3] = .ok (decode4 b0 b1 b2 b3) [] := rfl

/-- Settles O6: the instruction fetched is the one the four bytes decode to, and pc stands inside the buffer. -/
theorem stepRunsTheDecodedInstruction : Obligations.StepRunsTheDecodedInstruction := by
  intro s b0 b1 b2 b3 i hf h0 h1 h2 h3 hdec
  have hi : decode4 b0 b1 b2 b3 = i := by
    rw [decode_four] at hdec
    exact (Decoded.ok.inj hdec).1
  rw [step_of_lt hf (Memory.read_lt h0), fetchInstr_of_read h0 h1 h2 h3, hi]

theorem haltReason_eq_bufferEnd_iff : haltReason s = .bufferEnd ↔ s.buf.len ≤ s.pc.toNat := by
  unfold haltReason atBufferEnd
  by_cases hend : s.buf.len ≤ s.pc.toNat
  · simp [hend]
  · simp only [hend, decide_false, Bool.false_eq_true, if_false, iff_false]
    cases fetchInstr s <;> simp

theorem stepResult_halted {reason : HaltReason} (h : stepResult s t = .halted reason) : reason = haltReason s := by
  unfold stepResult at h
  split at h
  · cases h
  · split at h
    · cases h; rfl
    · cases h
    · cases h

/-- A halt is answered with the reason that holds at the start of the step; a refused step answers no halt. -/
theorem hostStep_halted {reason : HaltReason} (h : hostStep s = some (.halted reason, t)) : reason = haltReason s := by
  unfold hostStep at h
  split at h
  · simp only [Option.some.injEq, Prod.mk.injEq] at h
    obtain ⟨hresult, -⟩ := h
    exact stepResult_halted hresult
  · cases h
  · cases h

/-- At or past the buffer end, with no fault latched, a step halts where it is and writes rs only. -/
theorem step_halts_of_le (hf : s.fault = none) (h : s.buf.len ≤ s.pc.toNat) : Halts (step s) s s.pc.toNat :=
  ⟨s.setRs .halted, step_of_le hf h, fun _ => rfl, rfl, rfl, rfl, rfl, rfl, rfl⟩

/-- Settles O9: the latch, the buffer end, and inside the buffer one instruction, whose halt has another reason. -/
theorem stepTestsLatchThenBufferEnd : Obligations.StepTestsLatchThenBufferEnd := by
  refine ⟨fun s f hf => hostStep_of_latched hf, fun s hf hend => ?_, fun s hf hin => ?_⟩
  · exact ⟨step_halts_of_le hf hend, _, step_of_le hf hend, hostStep_of_le hf hend⟩
  · refine ⟨step_of_lt hf hin, fun t hhost => ?_⟩
    have hend : s.buf.len ≤ s.pc.toNat := haltReason_eq_bufferEnd_iff.1 (hostStep_halted hhost).symm
    omega

end Sys2Proof.Machine

/-! ### What `create` alone does (spec/40_step_cycle.md R52) -/

namespace Sys2Proof.Machine

/-- An append, accepted or answered `full`, writes the buffer only and does not shrink it. -/
theorem appendByteCap_grows_buf_only (cap : Nat) (b : Byte) (s : State) :
    s.buf.len ≤ (appendByteCap cap b s).2.buf.len ∧ ∃ m, (appendByteCap cap b s).2 = s.setBuf m := by
  rcases Nat.lt_or_ge s.buf.len cap with hroom | hfull
  · rw [appendByteCap_of_lt hroom]
    exact ⟨Nat.le_succ s.buf.len, s.buf.append b, rfl⟩
  · rw [appendByteCap_of_le hfull]
    exact ⟨le_rfl, s.buf, rfl⟩

/-- Settles O47: `create` is reset, a step keeps the buffer and runs on no latched fault, an append sets the buffer. -/
theorem createResetsEveryField : Obligations.CreateResetsEveryField := by
  intro s
  refine ⟨?_, fun t hstep => ?_, fun b => appendByteCap_grows_buf_only Config.bufCap b s⟩
  · have hread : ∀ k, State.reset.buf.read k = none := fun k => Memory.read_eq_none.2 (Nat.zero_le k)
    exact ⟨reset_ival, rfl, rfl, hread, rfl, rfl, rfl, rfl⟩
  · exact ⟨by rw [step_buf hstep], fun _ => (step_cases hstep).1⟩

end Sys2Proof.Machine

/-! ### LOAD (spec/41_load.md R63) -/

namespace Sys2Proof.Machine

variable {s : State}

/-- The two bytes of an immediate, the high one first, read as one number (spec/20_memory.md R29). -/
theorem toNat_append_bytes (hi lo : Byte) : (hi ++ lo).toNat = hi.toNat * 256 + lo.toNat := by
  rw [BitVec.toNat_append, ← Nat.shiftLeft_add_eq_or_of_lt lo.isLt, Nat.shiftLeft_eq]

theorem decode4_load (rd hi lo : Byte) : decode4 1 rd hi lo = .load rd (hi ++ lo) := rfl

/-- A zero-extended immediate is below 2^16, so its sign bit is clear and it reads as the same number. -/
theorem zext32_toInt (imm : Imm16) : (zext32 imm).toInt = imm.toNat := by
  have hwidth : (zext32 imm).toNat = imm.toNat := BitVec.toNat_setWidth_of_le (by decide)
  have himm : imm.toNat < 2 ^ 16 := imm.isLt
  rw [BitVec.toInt_eq_toNat_of_lt (by omega), hwidth]

/-- Taking a fault writes the latch and rs only (spec/60_exceptions.md R94). -/
theorem faults_raise (s : State) (kind : FaultKind) (info : Nat) : Faults (raise s kind info) s kind info :=
  ⟨_, rfl, fun _ => rfl, rfl, rfl, rfl, rfl, rfl, rfl⟩

/-- Going on after a write to one register and pc writes these and rs only. -/
theorem continues_setReg_setPcNat {n : Nat} (hn : n < 2 ^ 32) (d : Reg) (v : Word) :
    Continues (proceed ((s.setReg d v).setPcNat n)) s (setAt s.ival d.val v.toInt) n s.rem.toNat s.flag := by
  refine ⟨_, rfl, fun r => ?_, setPcNat_pc_toNat (s := s.setReg d v) hn, rfl, rfl, rfl, rfl, rfl⟩
  simp only [setRs_ival, setPcNat_ival, setReg_ival, setAt, Fin.ext_iff]

/-- Settles O24: `exec_load` fetches rd, then the two immediate bytes; each clause says which fetch is the last. -/
theorem loadWritesTheZeroExtendedImmediate : Obligations.LoadWritesTheZeroExtendedImmediate := by
  refine ⟨fun rd hi lo => ⟨hi ++ lo, toNat_append_bytes hi lo, decode4_load rd hi lo⟩, fun s rd imm hcap => ?_⟩
  rw [exec_load]
  refine ⟨fun h3 hrd => ?_, fun h1 => ?_, fun h1 hrd => ?_, fun h1 hrd h2 => ?_, fun h2 hrd h3 => ?_⟩
  · rw [fetchReg_of_lt (by omega) hrd, fetchByte_of_lt (by omega), fetchByte_of_lt h3, ← zext32_toInt]
    exact continues_setReg_setPcNat (by omega) ⟨rd.toNat, hrd⟩ (zext32 imm)
  · rw [fetchReg_of_le h1]
    exact faults_raise ..
  · rw [fetchReg_of_bad h1 hrd]
    exact faults_raise ..
  · rw [fetchReg_of_lt h1 hrd, fetchByte_of_le h2]
    exact faults_raise ..
  · rw [fetchReg_of_lt (by omega) hrd, fetchByte_of_lt h2, fetchByte_of_le h3]
    exact faults_raise ..

end Sys2Proof.Machine

/-! ### ADD, SUB and MUL (spec/42_arithmetic.md R64 to R67) -/

namespace Sys2Proof.Machine

/-- The word that arithmetic writes reads as the result wrapped to a signed 32-bit integer (spec/00_scope.md R8). -/
theorem wrap32_toInt (n : Int) : (wrap32 n).toInt = wrapInt n := BitVec.toInt_ofInt n

/-- A signed 32-bit integer is its own wrap, so on it the spec's decision D8 decides nothing. -/
theorem wrapInt_of_inRange {n : Int} (hmin : -2147483648 ≤ n) (hmax : n ≤ 2147483647) : wrapInt n = n :=
  Int.bmod_eq_of_le (by omega) (by omega)

/-- On three bytes inside the buffer that name registers, the common shape of ADD, SUB and MUL writes the wrapped
result and pc0 + 4. -/
theorem continues_arith {s : State} (op : Int → Int → Int) {a b d : Byte} (ha : a.toNat < 32) (hb : b.toNat < 32)
    (hd : d.toNat < 32) (hcap : s.buf.len < 2 ^ 32) (hin : s.pc.toNat + 3 < s.buf.len) :
    Continues (arith op a b d s) s (setAt s.ival d.toNat (wrapInt (op (s.at a ha) (s.at b hb)))) (s.pc.toNat + 4)
      s.rem.toNat s.flag := by
  rw [arith, fetchRRR_of_lt hin ha hb hd, ← wrap32_toInt]
  exact continues_setReg_setPcNat (by omega) ⟨d.toNat, hd⟩ _

/-- An exact result that is a signed 32-bit integer is written as it is. -/
theorem continues_arith_of_inRange {s : State} (op : Int → Int → Int) {a b d : Byte} {n : Int} (ha : a.toNat < 32)
    (hb : b.toNat < 32) (hd : d.toNat < 32) (hcap : s.buf.len < 2 ^ 32) (hin : s.pc.toNat + 3 < s.buf.len)
    (hmin : -2147483648 ≤ n) (hmax : n ≤ 2147483647) (hn : n = op (s.at a ha) (s.at b hb)) :
    Continues (arith op a b d s) s (setAt s.ival d.toNat n) (s.pc.toNat + 4) s.rem.toNat s.flag := by
  have hwrap : wrapInt (op (s.at a ha) (s.at b hb)) = n := by rw [← hn, wrapInt_of_inRange hmin hmax]
  rw [← hwrap]
  exact continues_arith op ha hb hd hcap hin

/-- Settles O28: ADD, SUB and MUL are `arith` of their operations, which writes a result in range as it is. -/
theorem arithmeticIsExactInRange : Obligations.ArithmeticIsExactInRange := by
  intro s a b d ha hb hd hcap hin n hmin hmax
  rw [exec_add, exec_sub, exec_mul]
  exact ⟨continues_arith_of_inRange (fun va vb => va + vb) ha hb hd hcap hin hmin hmax,
    continues_arith_of_inRange (fun va vb => va - vb) ha hb hd hcap hin hmin hmax,
    continues_arith_of_inRange (fun va vb => va * vb) ha hb hd hcap hin hmin hmax⟩

end Sys2Proof.Machine

/-! ### Decode and encode under every opcode map (spec/30_encoding.md R44, R50) -/

namespace Sys2Proof.Machine

theorem mem_opmap_iff (op : Opcode) : op ∈ opmap ↔ op ≠ .igl := by cases op <;> decide

/-- A map that D1 allows is a reordering of the spec's own: sixteen different opcodes, none of them IGL. -/
theorem perm_opmap_of_valid {m : List Opcode} (hm : opmapValid m = true) : m.Perm opmap := by
  simp only [opmapValid, Bool.and_eq_true, beq_iff_eq, decide_eq_true_eq, Bool.not_eq_true',
    List.contains_eq_mem, decide_eq_false_iff_not] at hm
  obtain ⟨⟨⟨⟨⟨⟨hlen, hnodup⟩, higl⟩, -⟩, -⟩, -⟩, -⟩ := hm
  have hsub : m ⊆ opmap := fun op hop => (mem_opmap_iff op).2 fun e => higl (e ▸ hop)
  exact (List.subperm_of_subset hnodup hsub).perm_of_length_le hlen.ge

theorem opmap_valid : opmapValid opmap = true := by decide

/-- A mapped opcode is decoded from the bytes at which the map holds it. -/
theorem decodeOpcodeWith_eq_iff_getElem? (m : List Opcode) {op : Opcode} (hop : op ≠ .igl) (b : Byte) :
    decodeOpcodeWith m b = op ↔ m[b.toNat]? = some op := by
  unfold decodeOpcodeWith
  cases m[b.toNat]? with
  | none => simp [hop.symm]
  | some op' => simp

/-- The canonical byte of a mapped opcode is its position in the map, which fits a byte. -/
theorem getElem?_opcodeByteWith {m : List Opcode} (hm : opmapValid m = true) {op : Opcode} (hop : op ≠ .igl) :
    m[(opcodeByteWith m op).toNat]? = some op := by
  have hperm := perm_opmap_of_valid hm
  have hlen : m.length = 16 := hperm.length_eq
  have hmem : op ∈ m := hperm.mem_iff.2 ((mem_opmap_iff op).2 hop)
  have hidx : m.idxOf op < m.length := List.idxOf_lt_length_iff.2 hmem
  rw [opcodeByteWith, if_neg hop, BitVec.toNat_ofNat, Nat.mod_eq_of_lt (by omega)]
  exact List.getElem?_idxOf hmem

/-- A byte's opcode is a mapped one exactly when the byte is that opcode's: the map holds no opcode twice. -/
theorem decodeOpcodeWith_eq_iff {m : List Opcode} (hm : opmapValid m = true) {op : Opcode} (hop : op ≠ .igl)
    (b : Byte) : decodeOpcodeWith m b = op ↔ b = opcodeByteWith m op := by
  have hget := getElem?_opcodeByteWith hm hop
  rw [decodeOpcodeWith_eq_iff_getElem? m hop]
  constructor
  · intro hb
    obtain ⟨hin, -⟩ := List.getElem?_eq_some_iff.1 hb
    have hnodup : m.Nodup := (perm_opmap_of_valid hm).nodup_iff.2 (by decide)
    exact BitVec.eq_of_toNat_eq ((List.getElem?_inj hin hnodup).1 (hb.trans hget.symm))
  · rintro rfl
    exact hget

/-- Encoding an opcode and decoding the byte gives the opcode back; IGL's byte 255 is past the map's last entry. -/
theorem decodeOpcodeWith_opcodeByteWith {m : List Opcode} (hm : opmapValid m = true) (op : Opcode) :
    decodeOpcodeWith m (opcodeByteWith m op) = op := by
  by_cases hop : op = .igl
  · have hperm := perm_opmap_of_valid hm
    have higl : .igl ∉ m := fun h => (mem_opmap_iff .igl).1 (hperm.mem_iff.1 h) rfl
    have hlen : m.length = 16 := hperm.length_eq
    have hbyte : opcodeByteWith m .igl = 255 := rfl
    rw [hop, decodeOpcodeWith_eq_igl_iff higl, hlen, hbyte]
    decide
  · exact (decodeOpcodeWith_eq_iff hm hop _).2 rfl

/-- An immediate is its high byte followed by its low byte (spec/30_encoding.md R42). -/
theorem append_bytes_of_imm (imm : Imm16) :
    (BitVec.ofNat 8 (imm.toNat / 256) ++ BitVec.ofNat 8 (imm.toNat % 256) : Imm16) = imm := by
  have himm : imm.toNat < 2 ^ 16 := imm.isLt
  apply BitVec.eq_of_toNat_eq
  rw [toNat_append_bytes, BitVec.toNat_ofNat, BitVec.toNat_ofNat]
  omega

/-- An instruction has exactly three operand or pad bytes, and its opcode puts them together to it again. -/
theorem exists_operandBytes (i : Instr) :
    ∃ b1 b2 b3, operandBytes i = [b1, b2, b3] ∧ assemble i.opcode b1 b2 b3 = i := by
  cases i with
  | load rd imm => exact ⟨_, _, _, rfl, congrArg (Instr.load rd) (append_bytes_of_imm imm)⟩
  | _ => exact ⟨_, _, _, rfl, rfl⟩

/-- Settles O1: the opcode byte gives the opcode back, and the opcode assembles the three bytes after it. -/
theorem decodeUndoesEncodeUnderEveryOpcodeMap : Obligations.DecodeUndoesEncodeUnderEveryOpcodeMap := by
  intro m i rest hm
  obtain ⟨b1, b2, b3, hbytes, hasm⟩ := exists_operandBytes i
  rw [encodeWith, hbytes]
  show Decoded.ok (assemble (decodeOpcodeWith m (opcodeByteWith m i.opcode)) b1 b2 b3) rest = .ok i rest
  rw [decodeOpcodeWith_opcodeByteWith hm, hasm]

/-- Settles O7: the encoding is four bytes, which decode to the instruction by O1. -/
theorem stepRunsTheEncodedInstruction : Obligations.StepRunsTheEncodedInstruction := by
  intro s i hf hread
  obtain ⟨b1, b2, b3, hbytes, -⟩ := exists_operandBytes i
  have henc : encode i = [opcodeByteWith opmap i.opcode, b1, b2, b3] := by rw [encode, encodeWith, hbytes]
  have hdec : decode (encode i) = .ok i [] := by
    have hback := decodeUndoesEncodeUnderEveryOpcodeMap opmap i [] opmap_valid
    rwa [List.append_nil] at hback
  rw [henc] at hread hdec
  exact stepRunsTheDecodedInstruction s _ b1 b2 b3 i hf (hread 0 _ rfl) (hread 1 _ rfl) (hread 2 _ rfl) (hread 3 _ rfl)
    hdec

/-- Only the opcode byte's value selects the instruction. -/
theorem decode4_of_toNat {b0 : Byte} {n : Nat} (h : b0.toNat = n) (b1 b2 b3 : Byte) :
    decode4 b0 b1 b2 b3 = assemble ((opmap[n]?).getD .igl) b1 b2 b3 := by
  subst h
  rfl

/-- Settles O2: the map's entry at each byte 0 to 15, assembled. -/
theorem opcodeByteSelectsTheInstruction : Obligations.OpcodeByteSelectsTheInstruction := by
  intro b0 b1 b2 b3
  have hsel := fun {n : Nat} (h : b0.toNat = n) => decode4_of_toNat h b1 b2 b3
  exact ⟨hsel, fun h => ⟨b2 ++ b3, toNat_append_bytes b2 b3, hsel h⟩, hsel, hsel, hsel, hsel, hsel, hsel, hsel, hsel,
    hsel, hsel, hsel, hsel, hsel, hsel, (decode4_eq_igl_iff b0 b1 b2 b3).2⟩

/-- Settles O4: in each format, the opcode the byte selects assembles to an instruction without the pads. -/
theorem padBytesAreDontCare : Obligations.PadBytesAreDontCare := by
  intro b0 b1 b2 b3 p q r
  refine ⟨fun h => ?_, fun h => ?_, fun h => ?_⟩
  · rcases h with h | h
    · rw [decode4_of_toNat h, decode4_of_toNat h]
      rfl
    · rw [(decode4_eq_igl_iff ..).2 h, (decode4_eq_igl_iff ..).2 h]
  · rw [decode4_of_toNat rfl, decode4_of_toNat rfl]
    simp only [List.mem_cons, List.not_mem_nil, or_false] at h
    rcases h with h | h | h | h <;> rw [h] <;> rfl
  · rw [decode4_of_toNat rfl, decode4_of_toNat rfl]
    simp only [List.mem_cons, List.not_mem_nil, or_false] at h
    rcases h with h | h | h | h | h | h <;> rw [h] <;> rfl

/-- Settles O5: closed words, evaluated. -/
theorem wordsPrintedInTheSpecDecode : Obligations.WordsPrintedInTheSpecDecode := by
  unfold Obligations.WordsPrintedInTheSpecDecode
  decide

end Sys2Proof.Machine

/-! ### The faults an instruction can take (spec/60_exceptions.md R86 to R95) -/

namespace Sys2Proof.Machine

variable {s t : State}

/-- What the operand phase over `slots`, from the byte at pc0 + j on, makes of a result: its first fault is taken, and
without one the result is as `rest` says. -/
structure FetchPhase (s : State) (j : Nat) (slots : List Slot) (rest : Result → Prop) (o : Result) : Prop where
  faulty : ∀ kind info, planFault s.buf.len (s.pc.toNat + j) slots = some (kind, info) → o = raise s kind info
  clean  : planFault s.buf.len (s.pc.toNat + j) slots = none → rest o

section
variable {rest : Result → Prop} {j : Nat} {slots : List Slot}

/-- Nothing left to fetch. -/
theorem fetchPhase_nil {o : Result} (h : rest o) : FetchPhase s j [] rest o := ⟨fun _ _ hf => (by cases hf), fun _ => h⟩

/-- The fault that the plan finds is the one taken. -/
theorem fetchPhase_raise {kind : FaultKind} {info : Nat}
    (h : planFault s.buf.len (s.pc.toNat + j) slots = some (kind, info)) :
    FetchPhase s j slots rest (raise s kind info) := by
  constructor <;> rw [h]
  · rintro _ _ ⟨⟩; rfl
  · rintro ⟨⟩

/-- A slot that is fetched leaves the phase to the slots after it. -/
theorem fetchPhase_step {o : Result} {slot : Slot}
    (hslot : planFault s.buf.len (s.pc.toNat + j) (slot :: slots) = planFault s.buf.len (s.pc.toNat + (j + 1)) slots)
    (h : FetchPhase s (j + 1) slots rest o) : FetchPhase s j (slot :: slots) rest o := by
  constructor <;> rw [hslot]
  · exact h.faulty
  · exact h.clean

theorem fetchPhase_fetchByte {go : Result} (h : FetchPhase s (j + 1) slots rest go) :
    FetchPhase s j (.raw :: slots) rest (fetchByte s j go) := by
  rcases fetchByte_cases s j go with ⟨hout, e⟩ | ⟨hin, e⟩ <;> rw [e]
  · exact fetchPhase_raise (if_pos hout)
  · exact fetchPhase_step (if_neg (by omega)) h

theorem fetchPhase_fetchReg {b : Byte} {go : Reg → Result} (h : ∀ r, FetchPhase s (j + 1) slots rest (go r)) :
    FetchPhase s j (.reg b :: slots) rest (fetchReg s j b go) := by
  rcases fetchReg_cases s j b go with ⟨hout, e⟩ | ⟨hin, hbad, e⟩ | ⟨hin, hb, e⟩ <;> rw [e]
  · exact fetchPhase_raise (if_pos hout)
  · exact fetchPhase_raise (by rw [planFault, if_neg (by omega), if_pos hbad])
  · exact fetchPhase_step (by rw [planFault, if_neg (by omega), if_neg (by omega), Nat.add_assoc]) (h _)

end

/-- What is left of a result once the operands are fetched: one of the given faults, recorded at pc0 with an `info` of
its range, or an ending that keeps the latch. -/
inductive AfterFetch (s : State) (kinds : List FaultKind) : Result → Prop
  | raise {kind : FaultKind} {info : Nat} : kind ∈ kinds →
      FaultLatch.wf { kind := kind, info := info, pc0 := s.pc } → AfterFetch s kinds (raise s kind info)
  | proceed {t : State} : t.fault = s.fault → AfterFetch s kinds (proceed t)
  | halt {t : State} : t.fault = s.fault → AfterFetch s kinds (halt t)

/-- A register holds a signed 32-bit integer (spec/10_state.md R11). -/
theorem ival_bounds (s : State) (r : Reg) : -2147483648 ≤ s.ival r ∧ s.ival r ≤ 2147483647 := by
  have hlow : -2 ^ 31 ≤ (s.reg r).toInt := (s.reg r).le_toInt
  have hhigh : (s.reg r).toInt < 2 ^ 31 := (s.reg r).toInt_lt
  unfold State.ival
  omega

/-- `bits32` of a negative signed 32-bit integer. -/
theorem bits32_of_neg {v : Int} (hlow : -2147483648 ≤ v) (hneg : v < 0) : bits32 v = (v + 2 ^ 32).toNat := by
  unfold bits32
  omega

theorem bits32_of_lt {n : Nat} (h : n < 2 ^ 32) : bits32 n = n := by
  unfold bits32
  omega

/-- A jump's operand raises JumpNegative, or is a value below 2^31. -/
theorem afterFetch_jumpOperand {kinds : List FaultKind} (hmem : .jumpNegative ∈ kinds) (r : Reg) {go : Nat → Result}
    (h : ∀ v < 2 ^ 31, AfterFetch s kinds (go v)) : AfterFetch s kinds (jumpOperand s r go) := by
  obtain ⟨hlow, hhigh⟩ := ival_bounds s r
  rcases jumpOperand_cases s r go with ⟨hneg, e⟩ | ⟨hnonneg, e⟩ <;> rw [e]
  · refine .raise hmem ?_
    rw [bits32_of_neg hlow hneg]
    show 2 ^ 31 ≤ (s.ival r + 2 ^ 32).toNat ∧ (s.ival r + 2 ^ 32).toNat < 2 ^ 32
    omega
  · exact h _ (by omega)

theorem afterFetch_divEffect (ra rb rd : Reg) :
    AfterFetch s [.divideByZero, .divideOverflow] (divEffect s ra rb rd) := by
  unfold divEffect
  split_ifs
  · exact .raise (by decide) rb.isLt
  · exact .raise (by decide) rb.isLt
  · exact .proceed rfl

theorem fetchPhase_arith (op : Int → Int → Int) (a b d : Byte) (kinds : List FaultKind) :
    FetchPhase s 1 [.reg a, .reg b, .reg d] (AfterFetch s kinds) (arith op a b d s) := by
  rw [arith_eq]
  exact fetchPhase_fetchReg fun _ => fetchPhase_fetchReg fun _ => fetchPhase_fetchReg fun _ =>
    fetchPhase_nil (.proceed rfl)

theorem fetchPhase_compareRegs (rel : Int → Int → Bool) (a b : Byte) (kinds : List FaultKind) :
    FetchPhase s 1 [.reg a, .reg b, .raw] (AfterFetch s kinds) (compareRegs rel a b s) := by
  rw [compareRegs_eq]
  exact fetchPhase_fetchReg fun _ => fetchPhase_fetchReg fun _ => fetchPhase_fetchByte (fetchPhase_nil (.proceed rfl))

/-- A jump fetches its register byte, then tests the operand; what is done with the offset may fault too. -/
theorem fetchPhase_jump {kinds : List FaultKind} (hmem : .jumpNegative ∈ kinds) (t : Byte) {go : Nat → Result}
    (h : ∀ v < 2 ^ 31, AfterFetch s kinds (go v)) :
    FetchPhase s 1 [.reg t] (AfterFetch s kinds) (fetchReg s 1 t fun r => jumpOperand s r go) :=
  fetchPhase_fetchReg fun r => fetchPhase_nil (afterFetch_jumpOperand hmem r h)

/-- Every instruction takes the first fault of its operand phase, and without one ends or takes an execution fault. -/
theorem exec_fetchPhase (i : Instr) (s : State) :
    FetchPhase s 1 (plan s.flag i) (AfterFetch s (execFaults i)) (exec i s) := by
  cases i with
  | hlt => exact fetchPhase_nil (.halt rfl)
  | igl => exact fetchPhase_nil (.halt rfl)
  | load rd imm =>
    rw [exec_load]
    exact fetchPhase_fetchReg fun _ => fetchPhase_fetchByte (fetchPhase_fetchByte (fetchPhase_nil (.proceed rfl)))
  | add a b d => exact fetchPhase_arith _ a b d _
  | sub a b d => exact fetchPhase_arith _ a b d _
  | mul a b d => exact fetchPhase_arith _ a b d _
  | div a b d =>
    rw [exec_div]
    exact fetchPhase_fetchReg fun ra => fetchPhase_fetchReg fun rb => fetchPhase_fetchReg fun rd =>
      fetchPhase_nil (afterFetch_divEffect ra rb rd)
  | jmp t =>
    rw [exec_jmp]
    exact fetchPhase_jump List.mem_cons_self t fun _ _ => .proceed rfl
  | jmpf t =>
    rw [exec_jmpf]
    refine fetchPhase_jump List.mem_cons_self t fun v hv => ?_
    rw [bits32_of_lt (by omega)]
    split_ifs with hover
    · exact .raise (by simp) ⟨hover, hv⟩
    · exact .proceed rfl
  | jmpb t =>
    rw [exec_jmpb]
    refine fetchPhase_jump List.mem_cons_self t fun v hv => ?_
    rw [bits32_of_lt (by omega)]
    split_ifs with hunder
    · exact .raise (by simp) ⟨hunder, hv⟩
    · exact .proceed rfl
  | eq a b => exact fetchPhase_compareRegs _ a b _
  | neq a b => exact fetchPhase_compareRegs _ a b _
  | gt a b => exact fetchPhase_compareRegs _ a b _
  | lt a b => exact fetchPhase_compareRegs _ a b _
  | gtq a b => exact fetchPhase_compareRegs _ a b _
  | ltq a b => exact fetchPhase_compareRegs _ a b _
  | jeq t =>
    cases hflag : s.flag with
    | true =>
      rw [exec_jeq_taken s t hflag]
      exact fetchPhase_jump List.mem_cons_self t fun _ _ => .proceed rfl
    | false =>
      rw [exec_jeq_not_taken s t hflag]
      exact fetchPhase_fetchReg fun _ => fetchPhase_fetchByte (fetchPhase_fetchByte (fetchPhase_nil (.proceed rfl)))

/-- Settles O16: the operand phase's first fault is taken. -/
theorem operandPhaseFaultsInFetchOrder : Obligations.OperandPhaseFaultsInFetchOrder := by
  intro i s kind info hfault
  rw [(exec_fetchPhase i s).faulty kind info hfault]
  exact faults_raise s kind info

/-- A fault of fetching up to three slots after pc0 has an `info` of its range (decision D13). -/
theorem planFault_wf {len j : Nat} {pc0 : Word} {slots : List Slot} {kind : FaultKind} {info : Nat} (hj : 1 ≤ j)
    (hslots : j + slots.length ≤ 4) (h : planFault len (pc0.toNat + j) slots = some (kind, info)) :
    FaultLatch.wf { kind := kind, info := info, pc0 := pc0 } := by
  induction slots generalizing j with
  | nil => cases h
  | cons slot rest ih =>
    rw [List.length_cons] at hslots
    have hmissing : pc0.toNat < pc0.toNat + j ∧ pc0.toNat + j ≤ pc0.toNat + 3 := by omega
    have hrest : planFault len (pc0.toNat + (j + 1)) rest = some (kind, info) →
        FaultLatch.wf { kind := kind, info := info, pc0 := pc0 } := ih (by omega) (by omega)
    cases slot with
    | raw =>
      rw [planFault] at h
      split_ifs at h with hout
      · cases h; exact hmissing
      · exact hrest h
    | reg b =>
      rw [planFault] at h
      split_ifs at h with hout hbad
      · cases h; exact hmissing
      · cases h; exact ⟨hbad, b.isLt⟩
      · exact hrest h

theorem plan_length_le (flag : Bool) (i : Instr) : (plan flag i).length ≤ 3 := by
  cases i with
  | jeq t => cases flag <;> simp [plan]
  | _ => simp [plan]

theorem operandFault_wf {i : Instr} {kind : FaultKind} {info : Nat} (h : operandFault i s = some (kind, info)) :
    FaultLatch.wf { kind := kind, info := info, pc0 := s.pc } :=
  planFault_wf le_rfl (by have := plan_length_le s.flag i; omega) h

/-- A fault that an instruction latches: one of its own after a clean operand phase, or the operand phase's. -/
theorem exec_latched {i : Instr} {f : FaultLatch} (hnone : s.fault = none) (h : exec i s = .next t)
    (hf : t.fault = some f) :
    f.wf ∧ t = (s.setFault (some f)).setRs .halted ∧ f.pc0 = s.pc ∧
      ((operandFault i s = none ∧ f.kind ∈ execFaults i) ∨ operandFault i s = some (f.kind, f.info)) := by
  cases hphase : operandFault i s with
  | some fault =>
    obtain ⟨kind, info⟩ := fault
    rw [(exec_fetchPhase i s).faulty kind info hphase, raise_eq_next] at h
    subst h
    cases hf
    exact ⟨operandFault_wf hphase, rfl, rfl, .inr rfl⟩
  | none =>
    have hafter := (exec_fetchPhase i s).clean hphase
    rw [h] at hafter
    cases hafter with
    | raise hkind hwf => cases hf; exact ⟨hwf, rfl, rfl, .inl ⟨rfl, hkind⟩⟩
    | proceed hkeep => rw [setRs_fault, hkeep, hnone] at hf; cases hf
    | halt hkeep => rw [setRs_fault, hkeep, hnone] at hf; cases hf

/-- Settles O17: `exec_latched` says which fault it is. -/
theorem faultsRaisedByEachInstruction : Obligations.FaultsRaisedByEachInstruction := by
  intro i s t f hnone h hf
  obtain ⟨hwf, -, hpc0, ⟨hclean, hkind⟩ | hphase⟩ := exec_latched hnone h hf
  · exact ⟨hwf, hpc0, .inl hkind, fun _ => hkind⟩
  · exact ⟨hwf, hpc0, .inr hphase, fun hclean => by rw [hphase] at hclean; cases hclean⟩

/-- Settles O13: the latching state is the starting one but for the latch and rs. -/
theorem faultingInstructionWritesOnlyLatchAndStatus : Obligations.FaultingInstructionWritesOnlyLatchAndStatus := by
  intro i s t hnone h hfault
  obtain ⟨⟨kind, info, pc0⟩, hf⟩ := Option.ne_none_iff_exists'.1 hfault
  obtain ⟨-, rfl, rfl, -⟩ := exec_latched hnone h hf
  exact ⟨kind, info, rfl, fun _ => rfl, rfl, rfl, rfl, rfl, rfl⟩

end Sys2Proof.Machine

/-! ### How a step ends, and what the host is answered (spec/40_step_cycle.md R55 to R58) -/

namespace Sys2Proof.Machine

variable {s t : State}

/-- An instruction goes on with the latch as it was, or halts or faults; it never leaves the engine Idle. -/
theorem exec_rs {i : Instr} (h : exec i s = .next t) : (t.rs = .running ∧ t.fault = s.fault) ∨ t.rs = .halted := by
  rcases exec_cases i s with (⟨kind, info, e⟩ | ⟨u, e, -, hfault⟩) | ⟨-, e⟩ <;> rw [e] at h
  · rw [← raise_eq_next.1 h]; exact .inr rfl
  · rw [← proceed_eq_next.1 h]; exact .inl ⟨rfl, hfault⟩
  · rw [← halt_eq_next.1 h]; exact .inr rfl

theorem step_rs (h : step s = .next t) : (t.rs = .running ∧ t.fault = none) ∨ t.rs = .halted := by
  obtain ⟨hnone, ⟨-, rfl⟩ | ⟨-, hexec⟩⟩ := step_cases h
  · exact .inr rfl
  · exact hnone ▸ exec_rs hexec

/-- Settles O40: a latched fault is one `exec_latched` describes, and no step leaves the engine Idle. -/
theorem stepKeepsTheInvariant : Obligations.StepKeepsTheInvariant := by
  intro s t hinv hstep
  have hbuf := step_buf hstep
  refine ⟨hbuf ▸ hinv.canonical, hbuf ▸ hinv.capacity, fun f hf => ?_, fun hidle => ?_⟩
  · obtain ⟨hnone, ⟨-, rfl⟩ | ⟨hin, hexec⟩⟩ := step_cases hstep
    · rw [setRs_fault, hnone] at hf
      cases hf
    · obtain ⟨hwf, rfl, hpc0, -⟩ := exec_latched hnone hexec hf
      exact ⟨hwf, hpc0, hin, rfl⟩
  · rcases step_rs hstep with ⟨hrunning, -⟩ | hhalted
    · rw [hrunning] at hidle; cases hidle
    · rw [hhalted] at hidle; cases hidle

/-- Settles O11: the three endings of `exec_cases` are next states. -/
theorem everyInstructionAnswersANextState : Obligations.EveryInstructionAnswersANextState := by
  intro i s
  rcases exec_cases i s with (⟨kind, info, e⟩ | ⟨u, e, -⟩) | ⟨-, e⟩ <;> rw [e]
  · exact ⟨_, rfl⟩
  · exact ⟨_, rfl⟩
  · exact ⟨_, rfl⟩

/-- With no fault latched, a step answers a next state. -/
theorem exists_step_of_none (hf : s.fault = none) : ∃ t, step s = .next t := by
  rcases Nat.lt_or_ge s.pc.toNat s.buf.len with hin | hend
  · rw [step_of_lt hf hin]
    exact everyInstructionAnswersANextState (fetchInstr s) s
  · exact ⟨_, step_of_le hf hend⟩

/-- The host always gets a result and a state. -/
theorem exists_hostStep (s : State) : ∃ r t, hostStep s = some (r, t) := by
  cases hf : s.fault with
  | some f => exact ⟨_, _, hostStep_of_latched hf⟩
  | none =>
    obtain ⟨t, hstep⟩ := exists_step_of_none hf
    exact ⟨_, _, hostStep_of_next hstep⟩

/-- Settles O12: a latched step is refused, any other answers. -/
theorem stepAnswersNextExactlyWhenNoFaultIsLatched : Obligations.StepAnswersNextExactlyWhenNoFaultIsLatched :=
  fun s => ⟨⟨fun ⟨_, hstep⟩ => (step_cases hstep).1, exists_step_of_none⟩, exists_hostStep s⟩

/-- Settles O10: a refused step answers the latch, and ends a run; an append writes the buffer only. -/
theorem latchedFaultIsTerminal : Obligations.LatchedFaultIsTerminal := by
  intro s f hf
  refine ⟨hostRun_of_halts rfl (hostStep_of_latched hf), core_run_of_fault (step_of_latched hf), fun b => ?_, rfl⟩
  obtain ⟨-, m, e⟩ := appendByteCap_grows_buf_only Config.bufCap b s
  rw [appendByte, e]
  exact hf

/-! What `step()` answers, read off the state it leaves. -/

theorem stepResult_of_latched {f : FaultLatch} (hf : t.fault = some f) : stepResult s t = .fault f.kind f.info := by
  unfold stepResult
  rw [hf]

theorem stepResult_of_halted (hf : t.fault = none) (hrs : t.rs = .halted) :
    stepResult s t = .halted (haltReason s) := by
  unfold stepResult
  rw [hf, hrs]

theorem stepResult_of_running (hf : t.fault = none) (hrs : t.rs = .running) : stepResult s t = .continued := by
  unfold stepResult
  rw [hf, hrs]

/-- Settles O14: the host's answer is read off the latch and rs. -/
theorem runStatusFollowsTheStepResult : Obligations.RunStatusFollowsTheStepResult := by
  intro s t hstep
  rw [hostStep_of_next hstep]
  rcases step_rs hstep with ⟨hrunning, hnone⟩ | hhalted
  · exact .inl ⟨hrunning, by rw [stepResult_of_running hnone hrunning]⟩
  · refine .inr ⟨hhalted, _, ?_, rfl⟩
    cases hf : t.fault with
    | some f => rw [stepResult_of_latched hf]; rfl
    | none => rw [stepResult_of_halted hf hhalted]; rfl

end Sys2Proof.Machine

/-! ### What halts a step (spec/60_exceptions.md R84, R85) -/

namespace Sys2Proof.Machine

variable {s t : State}

theorem haltReason_of_hlt (hin : s.pc.toNat < s.buf.len) (h : fetchInstr s = .hlt) : haltReason s = .hlt := by
  have hend : ¬ s.buf.len ≤ s.pc.toNat := by omega
  simp [haltReason, atBufferEnd, hend, h]

theorem haltReason_of_igl (hin : s.pc.toNat < s.buf.len) (h : fetchInstr s = .igl) : haltReason s = .igl := by
  have hend : ¬ s.buf.len ≤ s.pc.toNat := by omega
  simp [haltReason, atBufferEnd, hend, h]

/-- HLT and IGL step past their opcode byte and halt (decision D18). -/
theorem step_of_halting (hf : s.fault = none) (hin : s.pc.toNat < s.buf.len)
    (hi : fetchInstr s = .hlt ∨ fetchInstr s = .igl) :
    step s = halt (s.setPcNat (s.pc.toNat + 1)) := by
  rw [step_of_lt hf hin]
  rcases hi with hi | hi <;> rw [hi]
  · exact exec_hlt s
  · exact exec_igl s

theorem hostStep_of_halting (hf : s.fault = none) (hin : s.pc.toNat < s.buf.len)
    (hi : fetchInstr s = .hlt ∨ fetchInstr s = .igl) :
    hostStep s = some (.halted (haltReason s), (s.setPcNat (s.pc.toNat + 1)).setRs .halted) := by
  have hanswer : stepResult s ((s.setPcNat (s.pc.toNat + 1)).setRs .halted) = .halted (haltReason s) :=
    stepResult_of_halted hf rfl
  rw [hostStep_of_next (step_of_halting hf hin hi), hanswer]

/-- A step that the host is told has halted ran no latched state, and stood at the buffer end or at HLT or IGL. -/
theorem halting_of_hostStep {reason : HaltReason} (h : hostStep s = some (.halted reason, t)) :
    s.fault = none ∧ (s.buf.len ≤ s.pc.toNat ∨
      (s.pc.toNat < s.buf.len ∧ (fetchInstr s = .hlt ∨ fetchInstr s = .igl))) := by
  cases hf : s.fault with
  | some f => rw [hostStep_of_latched hf] at h; cases h
  | none =>
    refine ⟨rfl, (Nat.lt_or_ge s.pc.toNat s.buf.len).symm.imp_right fun hin => ⟨hin, ?_⟩⟩
    rcases exec_cases (fetchInstr s) s with (⟨kind, info, e⟩ | ⟨u, e, -, hfault⟩) | ⟨hi, -⟩
    · rw [hostStep_of_next ((step_of_lt hf hin).trans e), stepResult_of_latched rfl] at h
      cases h
    · have hanswer : stepResult s (u.setRs .running) = .continued := stepResult_of_running (hfault.trans hf) rfl
      rw [hostStep_of_next ((step_of_lt hf hin).trans e), hanswer] at h
      cases h
    · exact hi

/-- The opcode byte 0, and no other, is HLT's. -/
theorem decode4_eq_hlt_iff (b0 b1 b2 b3 : Byte) : decode4 b0 b1 b2 b3 = .hlt ↔ b0 = 0 := by
  have hasm (op : Opcode) : assemble op b1 b2 b3 = .hlt ↔ op = .hlt := by cases op <;> simp [assemble]
  exact (hasm _).trans (decodeOpcodeWith_eq_iff opmap_valid (by decide) b0)

theorem fetchInstr_eq_hlt_iff {b : Byte} (hb : s.buf.read s.pc.toNat = some b) : fetchInstr s = .hlt ↔ b = 0 := by
  rw [fetchInstr, lane_of_read (j := 0) hb, decode4_eq_hlt_iff]

theorem fetchInstr_eq_igl_iff {b : Byte} (hb : s.buf.read s.pc.toNat = some b) :
    fetchInstr s = .igl ↔ 16 ≤ b.toNat := by
  rw [fetchInstr, lane_of_read (j := 0) hb, decode4_eq_igl_iff]

theorem Memory.exists_read {m : Memory} {k : Nat} (h : k < m.len) : ∃ b, m.read k = some b := ⟨_, if_pos h⟩

/-- Settles O15: the halting states of `halting_of_hostStep`, told apart by the byte at pc. -/
theorem onlyThreeHaltingConditions : Obligations.OnlyThreeHaltingConditions := by
  intro s
  refine ⟨⟨fun ⟨t, h⟩ => ?_, fun ⟨hf, hend⟩ => ⟨_, hostStep_of_le hf hend⟩⟩, ⟨fun ⟨t, h⟩ => ?_, fun ⟨hf, hb⟩ => ?_⟩,
    ⟨fun ⟨t, h⟩ => ?_, fun ⟨hf, b, hb, higl⟩ => ?_⟩⟩
  · exact ⟨(halting_of_hostStep h).1, haltReason_eq_bufferEnd_iff.1 (hostStep_halted h).symm⟩
  · obtain ⟨hf, hend | ⟨hin, hi | hi⟩⟩ := halting_of_hostStep h
    · exact absurd ((hostStep_halted h).trans (haltReason_eq_bufferEnd_iff.2 hend)) (by decide)
    · obtain ⟨b, hb⟩ := Memory.exists_read hin
      exact ⟨hf, (fetchInstr_eq_hlt_iff hb).1 hi ▸ hb⟩
    · exact absurd ((hostStep_halted h).trans (haltReason_of_igl hin hi)) (by decide)
  · have hin := Memory.read_lt hb
    have hi := (fetchInstr_eq_hlt_iff hb).2 rfl
    exact ⟨_, haltReason_of_hlt hin hi ▸ hostStep_of_halting hf hin (.inl hi)⟩
  · obtain ⟨hf, hend | ⟨hin, hi | hi⟩⟩ := halting_of_hostStep h
    · exact absurd ((hostStep_halted h).trans (haltReason_eq_bufferEnd_iff.2 hend)) (by decide)
    · exact absurd ((hostStep_halted h).trans (haltReason_of_hlt hin hi)) (by decide)
    · obtain ⟨b, hb⟩ := Memory.exists_read hin
      exact ⟨hf, b, hb, (fetchInstr_eq_igl_iff hb).1 hi⟩
  · have hin := Memory.read_lt hb
    have hi := (fetchInstr_eq_igl_iff hb).2 higl
    exact ⟨_, haltReason_of_igl hin hi ▸ hostStep_of_halting hf hin (.inr hi)⟩

end Sys2Proof.Machine

/-! ### ADD, SUB and MUL: the wrapped results, and their low bits (spec/42_arithmetic.md R65 to R67, R69) -/

namespace Sys2Proof.Machine

variable {s : State}

/-- Settles O25: ADD is `arith` of the sum. -/
theorem addWritesTheWrappedSum : Obligations.AddWritesTheWrappedSum := by
  intro s a b d ha hb hd hcap hin
  rw [exec_add]
  exact continues_arith (fun va vb => va + vb) ha hb hd hcap hin

/-- Settles O26: SUB is `arith` of the difference. -/
theorem subWritesTheWrappedDifference : Obligations.SubWritesTheWrappedDifference := by
  intro s a b d ha hb hd hcap hin
  rw [exec_sub]
  exact continues_arith (fun va vb => va - vb) ha hb hd hcap hin

/-- Settles O27: MUL is `arith` of the product. -/
theorem mulWritesTheWrappedProduct : Obligations.MulWritesTheWrappedProduct := by
  intro s a b d ha hb hd hcap hin
  rw [exec_mul]
  exact continues_arith (fun va vb => va * vb) ha hb hd hcap hin

/-! The wrapped signed result is the result of the word operation, which knows no sign. -/

theorem wrap32_add (v w : Word) : wrap32 (v.toInt + w.toInt) = v + w :=
  BitVec.eq_of_toInt_eq ((wrap32_toInt _).trans (BitVec.toInt_add v w).symm)

theorem wrap32_sub (v w : Word) : wrap32 (v.toInt - w.toInt) = v - w :=
  BitVec.eq_of_toInt_eq ((wrap32_toInt _).trans (BitVec.toInt_sub).symm)

theorem wrap32_mul (v w : Word) : wrap32 (v.toInt * w.toInt) = v * w :=
  BitVec.eq_of_toInt_eq ((wrap32_toInt _).trans (BitVec.toInt_mul v w).symm)

/-- The byte that names a register. -/
theorem regByte_toNat (r : Reg) : (BitVec.ofNat 8 r.val).toNat = r.val := by
  have hr : r.val < 32 := r.isLt
  rw [BitVec.toNat_ofNat, Nat.mod_eq_of_lt (by omega)]

theorem fetchReg_regByte {j : Nat} {go : Reg → Result} (hin : s.pc.toNat + j < s.buf.len) (r : Reg) :
    fetchReg s j (.ofNat 8 r.val) go = go r := by
  have hr : (BitVec.ofNat 8 r.val).toNat < 32 := (regByte_toNat r).symm ▸ r.isLt
  rw [fetchReg_of_lt hin hr]
  exact congrArg go (Fin.ext (regByte_toNat r))

/-- The destination holds the wrapped result, as a word. -/
theorem exists_arith_reg (op : Int → Int → Int) (a b d : Reg) (hin : s.pc.toNat + 3 < s.buf.len) :
    ∃ t, arith op (.ofNat 8 a.val) (.ofNat 8 b.val) (.ofNat 8 d.val) s = .next t ∧
      t.reg d = wrap32 (op (s.reg a).toInt (s.reg b).toInt) := by
  rw [arith_eq, fetchReg_regByte (by omega), fetchReg_regByte (by omega), fetchReg_regByte hin]
  refine ⟨_, rfl, ?_⟩
  rw [setRs_reg, setPcNat_reg, setReg_reg, if_pos rfl]
  rfl

/-- Settles O29: on words, wrapping the signed result is the operation modulo 2^32. -/
theorem lowBitsDoNotDependOnSignedness : Obligations.LowBitsDoNotDependOnSignedness := by
  intro s a b d hin
  rw [exec_add, exec_sub, exec_mul]
  obtain ⟨ta, hadd, hta⟩ := exists_arith_reg (fun va vb => va + vb) a b d hin
  obtain ⟨ts, hsub, hts⟩ := exists_arith_reg (fun va vb => va - vb) a b d hin
  obtain ⟨tm, hmul, htm⟩ := exists_arith_reg (fun va vb => va * vb) a b d hin
  refine ⟨⟨ta, hadd, ?_⟩, ⟨ts, hsub, ?_⟩, ⟨tm, hmul, ?_⟩⟩
  · rw [hta, wrap32_add, BitVec.toNat_add]
  · rw [hts, wrap32_sub, BitVec.toNat_sub, Nat.add_comm]
  · rw [htm, wrap32_mul, BitVec.toNat_mul]

end Sys2Proof.Machine

/-! ### DIV (spec/42_arithmetic.md R68, R69) -/

namespace Sys2Proof.Machine

variable {s : State}

/-- The truncated quotient: its sign is the operands' signs' product, its size the quotient of their sizes. -/
theorem tdiv_eq_sign_mul (va vb : Int) : tdiv va vb = va.sign * vb.sign * (va.natAbs / vb.natAbs : Nat) := by
  have hsplit : (va.tdiv vb).sign * ((va.tdiv vb).natAbs : Int) = tdiv va vb := Int.sign_mul_natAbs _
  have hsize : (va.tdiv vb).natAbs = va.natAbs / vb.natAbs := Int.natAbs_tdiv va vb
  rw [← hsplit, Int.sign_tdiv, hsize]
  split_ifs with hsmall
  · rw [Nat.div_eq_of_lt hsmall, Int.natCast_zero, Int.mul_zero, Int.mul_zero]
  · rfl

theorem trem_eq_tmod (va vb : Int) : trem va vb = va.tmod vb := by
  rw [trem, tdiv, Int.tmod_def, Int.mul_comm]

/-- The remainder of the truncated quotient: its sign is the dividend's (decision D9). -/
theorem trem_eq_sign_mul (va vb : Int) : trem va vb = va.sign * (va.natAbs % vb.natAbs : Nat) := by
  have hsplit : (va.tmod vb).sign * ((va.tmod vb).natAbs : Int) = va.tmod vb := Int.sign_mul_natAbs _
  rw [trem_eq_tmod, ← hsplit, Int.sign_tmod, Int.natAbs_tmod]
  split_ifs with hdvd
  · rw [Nat.mod_eq_zero_of_dvd (Int.natAbs_dvd_natAbs.2 hdvd), Int.natCast_zero, Int.mul_zero, Int.mul_zero]
  · rfl

/-- Only INT_MIN by -1 has a quotient that is no signed 32-bit integer. -/
theorem tdiv_inRange {va vb : Int} (hlow : -2147483648 ≤ va) (hhigh : va ≤ 2147483647) (hzero : vb ≠ 0)
    (hover : ¬(va = -2147483648 ∧ vb = -1)) : -2147483648 ≤ tdiv va vb ∧ tdiv va vb ≤ 2147483647 := by
  have hsize : (tdiv va vb).natAbs = va.natAbs / vb.natAbs := Int.natAbs_tdiv va vb
  rcases Nat.lt_or_ge vb.natAbs 2 with hunit | hbig
  · have hvb : vb = 1 ∨ vb = -1 := by omega
    rcases hvb with rfl | rfl
    · rw [tdiv, Int.tdiv_one]
      exact ⟨hlow, hhigh⟩
    · rw [tdiv, Int.tdiv_neg, Int.tdiv_one]
      omega
  · have hhalf : va.natAbs / vb.natAbs ≤ va.natAbs / 2 := Nat.div_le_div_left hbig (by decide)
    omega

/-- The state after a DIV that does not fault. -/
def divided (s : State) (d : Reg) (va vb : Int) : State :=
  (((s.setReg d (wrap32 (tdiv va vb))).setRem (BitVec.ofNat 32 (bits32 (trem va vb)))).setPcNat (s.pc.toNat + 4)).setRs
    .running

theorem divEffect_of_zero {ra rb : Reg} (rd : Reg) (hzero : s.ival rb = 0) :
    divEffect s ra rb rd = raise s .divideByZero rb.val := if_pos hzero

theorem divEffect_of_overflow {ra rb : Reg} (rd : Reg) (hmin : s.ival ra = intMin) (hneg : s.ival rb = -1) :
    divEffect s ra rb rd = raise s .divideOverflow rb.val := by
  rw [divEffect, if_neg (by omega), if_pos ⟨hmin, hneg⟩]

theorem divEffect_of_clean {ra rb : Reg} (rd : Reg) (hzero : s.ival rb ≠ 0)
    (hover : ¬(s.ival ra = intMin ∧ s.ival rb = -1)) :
    divEffect s ra rb rd = .next (divided s rd (s.ival ra) (s.ival rb)) := by
  rw [divEffect, if_neg hzero, if_neg hover]
  rfl

/-- DIV on three bytes inside the buffer that name registers. -/
theorem exec_div_of_lt {a b d : Byte} (hin : s.pc.toNat + 3 < s.buf.len) (ha : a.toNat < 32) (hb : b.toNat < 32)
    (hd : d.toNat < 32) :
    exec (.div a b d) s = divEffect s ⟨a.toNat, ha⟩ ⟨b.toNat, hb⟩ ⟨d.toNat, hd⟩ :=
  fetchRRR_of_lt (go := divEffect s) hin ha hb hd

theorem divided_ival {d : Reg} {va vb : Int} (hquot : -2147483648 ≤ tdiv va vb ∧ tdiv va vb ≤ 2147483647) (r : Reg) :
    (divided s d va vb).ival r = setAt s.ival d.val (tdiv va vb) r := by
  have hword : (wrap32 (tdiv va vb)).toInt = tdiv va vb := by rw [wrap32_toInt, wrapInt_of_inRange hquot.1 hquot.2]
  rw [divided, setRs_ival, setPcNat_ival, setRem_ival, setReg_ival, hword]
  simp only [setAt, Fin.ext_iff]

theorem divided_rem (d : Reg) (va vb : Int) : (divided s d va vb).rem.toNat = bits32 (trem va vb) := by
  have hbits : bits32 (trem va vb) < 2 ^ 32 := by unfold bits32; omega
  show (BitVec.ofNat 32 (bits32 (trem va vb))).toNat = _
  rw [BitVec.toNat_ofNat, Nat.mod_eq_of_lt hbits]

/-- Settles O30: the two faults in pseudocode order, and otherwise `divided`, whose quotient is in range. -/
theorem divWritesQuotientAndRemainderOrFaults : Obligations.DivWritesQuotientAndRemainderOrFaults := by
  intro s a b d ha hb hd hcap hin
  obtain ⟨hlow, hhigh⟩ := ival_bounds s ⟨a.toNat, ha⟩
  rw [exec_div_of_lt hin ha hb hd]
  refine ⟨fun hzero => ?_, fun hmin hneg => ?_, fun hzero hover => ?_⟩
  · rw [divEffect_of_zero _ hzero]
    exact faults_raise ..
  · rw [divEffect_of_overflow _ hmin hneg]
    exact faults_raise ..
  · rw [divEffect_of_clean _ hzero hover, ← tdiv_eq_sign_mul, ← trem_eq_sign_mul]
    exact ⟨_, rfl, divided_ival (tdiv_inRange hlow hhigh hzero hover), setPcNat_pc_toNat (s := s) (by omega),
      divided_rem _ _ _, rfl, rfl, rfl, rfl⟩

/-- Settles O31: r is the truncating remainder. -/
theorem divSatisfiesTheDivisionIdentity : Obligations.DivSatisfiesTheDivisionIdentity := by
  intro s a b d ha hb hd hin hzero hover
  obtain ⟨hlow, hhigh⟩ := ival_bounds s ⟨a.toNat, ha⟩
  have hquot : (divided s ⟨d.toNat, hd⟩ (s.at a ha) (s.at b hb)).at d hd = tdiv (s.at a ha) (s.at b hb) :=
    (divided_ival (tdiv_inRange hlow hhigh hzero hover) _).trans (if_pos rfl)
  rw [exec_div_of_lt hin ha hb hd, divEffect_of_clean _ hzero hover]
  refine ⟨_, trem (s.at a ha) (s.at b hb), rfl, ?_, ?_, ?_, ?_⟩
  · show s.at a ha = (divided s ⟨d.toNat, hd⟩ (s.at a ha) (s.at b hb)).at d hd * s.at b hb + _
    rw [hquot, trem]
    omega
  · rw [trem_eq_tmod, Int.natAbs_tmod]
    exact Nat.mod_lt _ (Int.natAbs_pos.2 hzero)
  · rw [trem_eq_tmod, Int.sign_tmod]
    split_ifs with hdvd
    · exact .inl (Int.tmod_eq_zero_of_dvd hdvd)
    · exact .inr rfl
  · rw [divided_rem]
    show (bits32 (trem (s.at a ha) (s.at b hb)) : Int) = _
    rw [bits32]
    omega

end Sys2Proof.Machine

/-! ### The jumps (spec/43_jumps.md, spec/45_jeq.md) -/

namespace Sys2Proof.Machine

variable {s : State}

/-- Going on after a write to pc alone. -/
theorem continues_setPcNat {n : Nat} (hn : n < 2 ^ 32) :
    Continues (proceed (s.setPcNat n)) s s.ival n s.rem.toNat s.flag :=
  ⟨_, rfl, fun _ => rfl, setPcNat_pc_toNat (s := s) hn, rfl, rfl, rfl, rfl, rfl⟩

/-- A jump operand that is no negative number is handed on. -/
theorem jumpOperand_of_nat {r : Reg} {v : Nat} (h : s.ival r = v) (go : Nat → Result) : jumpOperand s r go = go v := by
  rw [jumpOperand, h, if_neg (by omega), Int.toNat_natCast]

/-- A register holds no offset from 2^31 up (decision D10). -/
theorem lt_of_ival_eq {r : Reg} {v : Nat} (h : s.ival r = v) : v < 2 ^ 31 := by
  have hhigh := (ival_bounds s r).2
  omega

/-- A negative jump operand faults with the unsigned reading of its bits. -/
theorem faults_jumpOperand {r : Reg} (h : s.ival r < 0) (go : Nat → Result) :
    Faults (jumpOperand s r go) s .jumpNegative (s.ival r + 2 ^ 32).toNat := by
  rw [jumpOperand, if_pos h, bits32_of_neg (ival_bounds s r).1 h]
  exact faults_raise ..

/-- Settles O32: the operand is the target. -/
theorem jmpGoesToTheRegistersOffset : Obligations.JmpGoesToTheRegistersOffset := by
  intro s t ht hin
  rw [exec_jmp, fetchReg_of_lt hin ht]
  refine ⟨fun v hv => ?_, fun hneg => faults_jumpOperand hneg _⟩
  have hlt := lt_of_ival_eq hv
  rw [jumpOperand_of_nat hv]
  exact continues_setPcNat (by omega)

/-- Settles O33: the operand, then the test that the target fits. -/
theorem jmpfGoesForwardFromPcPlusTwo : Obligations.JmpfGoesForwardFromPcPlusTwo := by
  intro s t ht hin
  rw [exec_jmpf, fetchReg_of_lt hin ht]
  refine ⟨fun v hv hfits => ?_, fun v hv hover => ?_, fun hneg => faults_jumpOperand hneg _⟩
  · rw [jumpOperand_of_nat hv, if_neg (by omega)]
    exact continues_setPcNat hfits
  · have hlt := lt_of_ival_eq hv
    rw [jumpOperand_of_nat hv, if_pos hover, bits32_of_lt (by omega)]
    exact faults_raise ..

/-- Settles O34: the operand, then the test that the target is not before offset 0. -/
theorem jmpbGoesBackwardFromPcPlusTwo : Obligations.JmpbGoesBackwardFromPcPlusTwo := by
  intro s t ht hcap hin
  rw [exec_jmpb, fetchReg_of_lt hin ht]
  refine ⟨fun v hv hfits => ?_, fun v hv hunder => ?_, fun hneg => faults_jumpOperand hneg _⟩
  · rw [jumpOperand_of_nat hv, if_neg (by omega)]
    exact continues_setPcNat (by omega)
  · have hlt := lt_of_ival_eq hv
    rw [jumpOperand_of_nat hv, if_pos hunder, bits32_of_lt (by omega)]
    exact faults_raise ..

/-- A taken JEQ goes to the offset its register holds; its pads need not exist. -/
theorem continues_jeq_taken {t : Byte} (ht : t.toNat < 32) {v : Nat} (hin : s.pc.toNat + 1 < s.buf.len)
    (hflag : s.flag = true) (hv : s.at t ht = v) : Continues (exec (.jeq t) s) s s.ival v s.rem.toNat true := by
  have hlt := lt_of_ival_eq hv
  rw [exec_jeq_taken s t hflag, fetchReg_of_lt hin ht, jumpOperand_of_nat hv, ← hflag]
  exact continues_setPcNat (by omega)

/-- A JEQ that is not taken falls through past its pads, which must exist. -/
theorem continues_jeq_not_taken {t : Byte} (ht : t.toNat < 32) (hin : s.pc.toNat + 3 < s.buf.len)
    (hpc : s.pc.toNat + 4 < 2 ^ 32) (hflag : s.flag = false) :
    Continues (exec (.jeq t) s) s s.ival (s.pc.toNat + 4) s.rem.toNat false := by
  rw [exec_jeq_not_taken s t hflag, fetchReg_of_lt (by omega) ht, fetchByte_of_lt (by omega), fetchByte_of_lt hin,
    ← hflag]
  exact continues_setPcNat hpc

/-- Settles O35: the flag decides what is fetched; each clause says which fetch or test is the last. -/
theorem jeqJumpsExactlyWhenTheFlagIsSet : Obligations.JeqJumpsExactlyWhenTheFlagIsSet := by
  intro s t hcap hin
  refine ⟨fun ht v hflag hv => continues_jeq_taken ht hin hflag hv, fun ht hflag hneg => ?_,
    fun hflag ht h3 => continues_jeq_not_taken ht h3 (by omega) hflag, fun hflag ht h2 => ?_,
    fun hflag ht h2 h3 => ?_, fun hbad => ?_⟩
  · rw [exec_jeq_taken s t hflag, fetchReg_of_lt hin ht]
    exact faults_jumpOperand hneg _
  · rw [exec_jeq_not_taken s t hflag, fetchReg_of_lt hin ht, fetchByte_of_le h2]
    exact faults_raise ..
  · rw [exec_jeq_not_taken s t hflag, fetchReg_of_lt hin ht, fetchByte_of_lt h2, fetchByte_of_le h3]
    exact faults_raise ..
  · cases hflag : s.flag with
    | true => rw [exec_jeq_taken s t hflag, fetchReg_of_bad hin hbad]; exact faults_raise ..
    | false => rw [exec_jeq_not_taken s t hflag, fetchReg_of_bad hin hbad]; exact faults_raise ..

end Sys2Proof.Machine

/-! ### The comparisons (spec/44_compare.md R74 to R80) -/

namespace Sys2Proof.Machine

variable {s : State}

/-- On bytes inside the buffer that name registers, a comparison writes the relation of the operands to the flag. -/
theorem continues_compareRegs (rel : Int → Int → Bool) {a b : Byte} (ha : a.toNat < 32) (hb : b.toNat < 32)
    (hcap : s.buf.len < 2 ^ 32) (hin : s.pc.toNat + 3 < s.buf.len) :
    Continues (compareRegs rel a b s) s s.ival (s.pc.toNat + 4) s.rem.toNat (rel (s.at a ha) (s.at b hb)) := by
  rw [compareRegs, fetchRRPad_of_lt hin ha hb]
  exact ⟨_, rfl, fun _ => rfl, setPcNat_pc_toNat (s := s) (by omega), rfl, rfl, rfl, rfl, rfl⟩

/-- Each of the six comparisons is `compareRegs` of its relation, in every state. -/
theorem exists_rel_of_mem {i : Instr} {a b : Byte}
    (hi : i ∈ [Instr.eq a b, .neq a b, .gt a b, .lt a b, .gtq a b, .ltq a b]) :
    ∃ rel, ∀ s, exec i s = compareRegs rel a b s := by
  simp only [List.mem_cons, List.not_mem_nil, or_false] at hi
  rcases hi with rfl | rfl | rfl | rfl | rfl | rfl
  · exact ⟨relEq, fun s => exec_eq s a b⟩
  · exact ⟨relNeq, fun s => exec_neq s a b⟩
  · exact ⟨relGt, fun s => exec_gt s a b⟩
  · exact ⟨relLt, fun s => exec_lt s a b⟩
  · exact ⟨relGtq, fun s => exec_gtq s a b⟩
  · exact ⟨relLtq, fun s => exec_ltq s a b⟩

/-- Settles O36: `compareRegs` of the six relations, and the operand phase's faults, which do not depend on the
relation. -/
theorem comparisonsWriteTheFlag : Obligations.ComparisonsWriteTheFlag := by
  intro s a b hcap
  refine ⟨fun ha hb hin => ?_, fun i hi => ?_⟩
  · have hrel := fun rel => continues_compareRegs (s := s) rel ha hb hcap hin
    exact ⟨hrel relEq, hrel relNeq, hrel relGt, hrel relLt, hrel relGtq, hrel relLtq⟩
  · obtain ⟨rel, hexec⟩ := exists_rel_of_mem hi
    rw [hexec, compareRegs_eq]
    refine ⟨fun h1 => ?_, fun h1 ha => ?_, fun h1 ha h2 => ?_, fun h2 ha hb => ?_, fun h2 ha hb h3 => ?_⟩
    · rw [fetchReg_of_le h1]
      exact faults_raise ..
    · rw [fetchReg_of_bad h1 ha]
      exact faults_raise ..
    · rw [fetchReg_of_lt h1 ha, fetchReg_of_le h2]
      exact faults_raise ..
    · rw [fetchReg_of_lt (by omega) ha, fetchReg_of_bad h2 hb]
      exact faults_raise ..
    · rw [fetchReg_of_lt (by omega) ha, fetchReg_of_lt h2 hb, fetchByte_of_le h3]
      exact faults_raise ..

end Sys2Proof.Machine

/-! ### HLT and IGL (spec/46_halt.md R82, R83) -/

namespace Sys2Proof.Machine

variable {s : State}

/-- Halting past the opcode byte writes pc and rs only; the capacity keeps pc0 + 1 within PCW bits. -/
theorem halts_setPcNat_succ (hcap : s.buf.len < 2 ^ 32) (hin : s.pc.toNat < s.buf.len) :
    Halts (halt (s.setPcNat (s.pc.toNat + 1))) s (s.pc.toNat + 1) :=
  ⟨_, rfl, fun _ => rfl, setPcNat_pc_toNat (s := s) (by omega), rfl, rfl, rfl, rfl, rfl⟩

/-- Settles O37: the byte 0 at pc is HLT, which halts past it. -/
theorem hltHaltsAtPcPlusOne : Obligations.HltHaltsAtPcPlusOne := by
  refine ⟨fun b1 b2 b3 => (decode4_eq_hlt_iff 0 b1 b2 b3).2 rfl, by decide, fun s hcap hin => ?_⟩
  refine ⟨exec_hlt s ▸ halts_setPcNat_succ hcap hin, fun hf hread => ?_⟩
  have hi : fetchInstr s = .hlt := (fetchInstr_eq_hlt_iff hread).2 rfl
  have hstep := step_of_halting hf hin (.inl hi)
  have hhost := haltReason_of_hlt hin hi ▸ hostStep_of_halting hf hin (.inl hi)
  exact ⟨hstep ▸ halts_setPcNat_succ hcap hin, _, hstep, hhost⟩

/-- Settles O38: a byte 16 to 255 at pc is IGL, which halts past it. -/
theorem iglHaltsAtPcPlusOne : Obligations.IglHaltsAtPcPlusOne := by
  refine ⟨fun b0 b1 b2 b3 => (decode4_eq_igl_iff b0 b1 b2 b3).2, by decide, fun s hcap hin => ?_⟩
  refine ⟨exec_igl s ▸ halts_setPcNat_succ hcap hin, fun b hf hread higl => ?_⟩
  have hi : fetchInstr s = .igl := (fetchInstr_eq_igl_iff hread).2 higl
  have hstep := step_of_halting hf hin (.inr hi)
  have hhost := haltReason_of_igl hin hi ▸ hostStep_of_halting hf hin (.inr hi)
  exact ⟨hstep ▸ halts_setPcNat_succ hcap hin, _, hstep, hhost⟩

end Sys2Proof.Machine

/-! ### The bytes an instruction does not fetch (spec/30_encoding.md R47) -/

namespace Sys2Proof.Machine

variable {s : State}

/-- A register byte matters only where it stands inside the buffer. -/
theorem fetchReg_congr {j : Nat} {b c : Byte} {go go' : Reg → Result} (hb : s.pc.toNat + j < s.buf.len → b = c)
    (hgo : s.pc.toNat + j < s.buf.len → ∀ r, go r = go' r) : fetchReg s j b go = fetchReg s j c go' := by
  rcases Nat.lt_or_ge (s.pc.toNat + j) s.buf.len with hin | hout
  · rw [hb hin, funext (hgo hin)]
  · rw [fetchReg_of_le hout, fetchReg_of_le hout]

theorem fetchByte_congr {j : Nat} {go go' : Result} (hgo : s.pc.toNat + j < s.buf.len → go = go') :
    fetchByte s j go = fetchByte s j go' := by
  rcases Nat.lt_or_ge (s.pc.toNat + j) s.buf.len with hin | hout
  · rw [hgo hin]
  · rw [fetchByte_of_le hout, fetchByte_of_le hout]

section
variable {b1 b2 b3 c1 c2 c3 : Byte}
  (h1 : s.pc.toNat + 1 < s.buf.len → b1 = c1)
  (h2 : s.pc.toNat + 2 < s.buf.len → b2 = c2)
  (h3 : s.pc.toNat + 3 < s.buf.len → b3 = c3)
include h1

theorem execJeq_congr : execJeq b1 s = execJeq c1 s := fetchReg_congr h1 fun _ _ => rfl

include h2

theorem fetchRRPad_congr (go : Reg → Reg → Result) : fetchRRPad s b1 b2 go = fetchRRPad s c1 c2 go :=
  fetchReg_congr h1 fun _ _ => fetchReg_congr h2 fun _ _ => rfl

theorem compareRegs_congr (rel : Int → Int → Bool) : compareRegs rel b1 b2 s = compareRegs rel c1 c2 s :=
  fetchRRPad_congr h1 h2 _

include h3

theorem fetchRRR_congr (go : Reg → Reg → Reg → Result) : fetchRRR s b1 b2 b3 go = fetchRRR s c1 c2 c3 go :=
  fetchReg_congr h1 fun _ _ => fetchReg_congr h2 fun _ _ => fetchReg_congr h3 fun _ _ => rfl

theorem arith_congr (op : Int → Int → Int) : arith op b1 b2 b3 s = arith op c1 c2 c3 s :=
  fetchRRR_congr h1 h2 h3 _

/-- Two words with the same opcode run alike where they agree on the bytes inside the buffer. -/
theorem exec_assemble_congr (op : Opcode) : exec (assemble op b1 b2 b3) s = exec (assemble op c1 c2 c3) s := by
  cases op with
  | hlt => rfl
  | igl => rfl
  | load =>
    simp only [assemble, exec_load]
    refine fetchReg_congr h1 fun _ _ => fetchByte_congr fun hin2 => fetchByte_congr fun hin3 => ?_
    rw [h2 hin2, h3 hin3]
  | add => exact arith_congr h1 h2 h3 fun va vb => va + vb
  | sub => exact arith_congr h1 h2 h3 fun va vb => va - vb
  | mul => exact arith_congr h1 h2 h3 fun va vb => va * vb
  | div => exact fetchRRR_congr h1 h2 h3 (divEffect s)
  | jmp => simp only [assemble, exec_jmp]; exact fetchReg_congr h1 fun _ _ => rfl
  | jmpf => simp only [assemble, exec_jmpf]; exact fetchReg_congr h1 fun _ _ => rfl
  | jmpb => simp only [assemble, exec_jmpb]; exact fetchReg_congr h1 fun _ _ => rfl
  | jeq => exact execJeq_congr h1
  | eq => exact compareRegs_congr h1 h2 relEq
  | neq => exact compareRegs_congr h1 h2 relNeq
  | gt => exact compareRegs_congr h1 h2 relGt
  | lt => exact compareRegs_congr h1 h2 relLt
  | gtq => exact compareRegs_congr h1 h2 relGtq
  | ltq => exact compareRegs_congr h1 h2 relLtq

end

/-- A byte that agrees with the buffer where it reaches is the decoder's lane there. -/
theorem lane_eq_of_agrees {j : Nat} {b : Byte} (h : ∀ c, s.buf.read (s.pc.toNat + j) = some c → b = c)
    (hin : s.pc.toNat + j < s.buf.len) : lane s j = b := by
  obtain ⟨c, hc⟩ := Memory.exists_read hin
  rw [h c hc, lane_of_read hc]

/-- Settles O8: the decoder's lanes agree with the given bytes inside the buffer, and the opcode byte is inside it. -/
theorem onlyBytesInTheBufferMatter : Obligations.OnlyBytesInTheBufferMatter := by
  intro s b0 b1 b2 b3 hf h0 h1 h2 h3
  rw [step_of_lt hf (Memory.read_lt h0), fetchInstr, lane_of_read (j := 0) h0]
  exact exec_assemble_congr (lane_eq_of_agrees h1) (lane_eq_of_agrees h2) (lane_eq_of_agrees h3) _

end Sys2Proof.Machine

/-! ### The state an instruction does not read (spec/10_state.md R12, R16, R17) -/

namespace Sys2Proof.Machine

variable {s s' t : State}

/-- A map that forgets one part of the state: states alike but for that part stay so under the same write. -/
structure Forgets (E : State → State) : Prop where
  setReg   {u u' : State} (d : Reg) (v : Word) : E u' = E u → E (u'.setReg d v) = E (u.setReg d v)
  setPcNat {u u' : State} (n : Nat) : E u' = E u → E (u'.setPcNat n) = E (u.setPcNat n)
  setRem   {u u' : State} (v : Word) : E u' = E u → E (u'.setRem v) = E (u.setRem v)
  setFlag  {u u' : State} (b : Bool) : E u' = E u → E (u'.setFlag b) = E (u.setFlag b)
  setFault {u u' : State} (f : Option FaultLatch) : E u' = E u → E (u'.setFault f) = E (u.setFault f)
  setRs    {u u' : State} (r : RunStatus) : E u' = E u → E (u'.setRs r) = E (u.setRs r)

theorem forgets_rem : Forgets fun u => u.setRem 0 where
  setReg d v h := congrArg (fun u => u.setReg d v) h
  setPcNat n h := congrArg (fun u => u.setPcNat n) h
  setRem _ h := h
  setFlag b h := congrArg (fun u => u.setFlag b) h
  setFault f h := congrArg (fun u => u.setFault f) h
  setRs r h := congrArg (fun u => u.setRs r) h

theorem forgets_flag : Forgets fun u => u.setFlag false where
  setReg d v h := congrArg (fun u => u.setReg d v) h
  setPcNat n h := congrArg (fun u => u.setPcNat n) h
  setRem v h := congrArg (fun u => u.setRem v) h
  setFlag _ h := h
  setFault f h := congrArg (fun u => u.setFault f) h
  setRs r h := congrArg (fun u => u.setRs r) h

/-- A register written twice holds the second value. -/
theorem setReg_setReg_same (s : State) (r : Reg) (v w : Word) : (s.setReg r v).setReg r w = s.setReg r w := by
  simp [State.setReg, Vector.set_set]

theorem setReg_comm (s : State) {r d : Reg} (h : d ≠ r) (v w : Word) :
    (s.setReg d v).setReg r w = (s.setReg r w).setReg d v := by
  have hne : d.val ≠ r.val := fun e => h (Fin.ext e)
  simp only [State.setReg, Vector.set_comm _ _ hne]

theorem forgets_reg (r : Reg) : Forgets fun u => u.setReg r 0 where
  setReg {u u'} d v h := by
    by_cases hd : d = r
    · rw [hd, setReg_setReg_same, setReg_setReg_same, h]
    · rw [setReg_comm u' hd, setReg_comm u hd, h]
  setPcNat n h := congrArg (fun u => u.setPcNat n) h
  setRem v h := congrArg (fun u => u.setRem v) h
  setFlag b h := congrArg (fun u => u.setFlag b) h
  setFault f h := congrArg (fun u => u.setFault f) h
  setRs q h := congrArg (fun u => u.setRs q) h

/-- Where the first result is a next state, so is the second, and E tells the two apart in nothing. -/
def AlikeUpTo (E : State → State) (o o' : Result) : Prop := ∀ t, o = .next t → ∃ t', o' = .next t' ∧ E t' = E t

section
variable {E : State → State} (hE : Forgets E) (hpc : s'.pc = s.pc) (hbuf : s'.buf = s.buf) (hsame : E s' = E s)
include hE

theorem alikeUpTo_proceed {u u' : State} (h : E u' = E u) : AlikeUpTo E (proceed u) (proceed u') := by
  rintro _ ⟨⟩
  exact ⟨_, rfl, hE.setRs _ h⟩

theorem alikeUpTo_halt {u u' : State} (h : E u' = E u) : AlikeUpTo E (halt u) (halt u') := by
  rintro _ ⟨⟩
  exact ⟨_, rfl, hE.setRs _ h⟩

include hpc hsame

theorem alikeUpTo_raise (kind : FaultKind) (info : Nat) : AlikeUpTo E (raise s kind info) (raise s' kind info) := by
  rintro _ ⟨⟩
  refine ⟨_, rfl, ?_⟩
  rw [hpc]
  exact hE.setRs _ (hE.setFault _ hsame)

theorem alikeUpTo_jumpOperand {r : Reg} {go go' : Nat → Result} (hr : s'.ival r = s.ival r)
    (h : ∀ v, AlikeUpTo E (go v) (go' v)) : AlikeUpTo E (jumpOperand s r go) (jumpOperand s' r go') := by
  unfold jumpOperand
  rw [hr]
  split_ifs
  · exact alikeUpTo_raise hE hpc hsame _ _
  · exact h _

theorem alikeUpTo_divEffect {ra rb : Reg} (rd : Reg) (ha : s'.ival ra = s.ival ra) (hb : s'.ival rb = s.ival rb) :
    AlikeUpTo E (divEffect s ra rb rd) (divEffect s' ra rb rd) := by
  unfold divEffect
  rw [ha, hb, hpc]
  split_ifs
  · exact alikeUpTo_raise hE hpc hsame _ _
  · exact alikeUpTo_raise hE hpc hsame _ _
  · exact alikeUpTo_proceed hE (hE.setPcNat _ (hE.setRem _ (hE.setReg _ _ hsame)))

include hbuf

theorem alikeUpTo_fetchByte {j : Nat} {go go' : Result} (h : AlikeUpTo E go go') :
    AlikeUpTo E (fetchByte s j go) (fetchByte s' j go') := by
  unfold fetchByte
  rw [hpc, hbuf]
  split_ifs
  · exact alikeUpTo_raise hE hpc hsame _ _
  · exact h

theorem alikeUpTo_fetchReg {j : Nat} {b : Byte} {go go' : Reg → Result}
    (h : ∀ hb : b.toNat < 32, AlikeUpTo E (go ⟨b.toNat, hb⟩) (go' ⟨b.toNat, hb⟩)) :
    AlikeUpTo E (fetchReg s j b go) (fetchReg s' j b go') := by
  refine alikeUpTo_fetchByte hE hpc hbuf hsame ?_
  split_ifs with hb
  · exact h hb
  · exact alikeUpTo_raise hE hpc hsame _ _

theorem alikeUpTo_arith (op : Int → Int → Int) {a b : Byte} (d : Byte)
    (hreg : ∀ c ∈ [a, b], ∀ hc : c.toNat < 32, s'.at c hc = s.at c hc) :
    AlikeUpTo E (arith op a b d s) (arith op a b d s') := by
  rw [arith_eq, arith_eq]
  refine alikeUpTo_fetchReg hE hpc hbuf hsame fun ha => alikeUpTo_fetchReg hE hpc hbuf hsame fun hb =>
    alikeUpTo_fetchReg hE hpc hbuf hsame fun hd => ?_
  have hva : s'.ival ⟨a.toNat, ha⟩ = s.ival ⟨a.toNat, ha⟩ := hreg a (by simp) ha
  have hvb : s'.ival ⟨b.toNat, hb⟩ = s.ival ⟨b.toNat, hb⟩ := hreg b (by simp) hb
  rw [hva, hvb, hpc]
  exact alikeUpTo_proceed hE (hE.setPcNat _ (hE.setReg _ _ hsame))

theorem alikeUpTo_compareRegs (rel : Int → Int → Bool) {a b : Byte}
    (hreg : ∀ c ∈ [a, b], ∀ hc : c.toNat < 32, s'.at c hc = s.at c hc) :
    AlikeUpTo E (compareRegs rel a b s) (compareRegs rel a b s') := by
  rw [compareRegs_eq, compareRegs_eq]
  refine alikeUpTo_fetchReg hE hpc hbuf hsame fun ha => alikeUpTo_fetchReg hE hpc hbuf hsame fun hb =>
    alikeUpTo_fetchByte hE hpc hbuf hsame ?_
  have hva : s'.ival ⟨a.toNat, ha⟩ = s.ival ⟨a.toNat, ha⟩ := hreg a (by simp) ha
  have hvb : s'.ival ⟨b.toNat, hb⟩ = s.ival ⟨b.toNat, hb⟩ := hreg b (by simp) hb
  rw [hva, hvb, hpc]
  exact alikeUpTo_proceed hE (hE.setPcNat _ (hE.setFlag _ hsame))

/-- A jump's register byte and operand, and what is done with the offset. -/
theorem alikeUpTo_jump {t : Byte} {go go' : Nat → Result} (hreg : ∀ hc : t.toNat < 32, s'.at t hc = s.at t hc)
    (h : ∀ v, AlikeUpTo E (go v) (go' v)) :
    AlikeUpTo E (fetchReg s 1 t fun r => jumpOperand s r go) (fetchReg s' 1 t fun r => jumpOperand s' r go') :=
  alikeUpTo_fetchReg hE hpc hbuf hsame fun ht => alikeUpTo_jumpOperand hE hpc hsame (hreg ht) h

/-- An instruction depends on pc, the buffer, the registers it reads and, if it is JEQ, the flag: in a state that agrees
on these, and with s on all that E keeps, it ends alike up to E. -/
theorem alikeUpTo_exec {i : Instr} (hflag : (∃ r, i = .jeq r) → s'.flag = s.flag)
    (hreg : ∀ b ∈ reads s.flag i, ∀ hb : b.toNat < 32, s'.at b hb = s.at b hb) :
    AlikeUpTo E (exec i s) (exec i s') := by
  cases i with
  | hlt =>
    rw [exec_hlt, exec_hlt, hpc]
    exact alikeUpTo_halt hE (hE.setPcNat _ hsame)
  | igl =>
    rw [exec_igl, exec_igl, hpc]
    exact alikeUpTo_halt hE (hE.setPcNat _ hsame)
  | load rd imm =>
    rw [exec_load, exec_load, hpc]
    exact alikeUpTo_fetchReg hE hpc hbuf hsame fun _ => alikeUpTo_fetchByte hE hpc hbuf hsame
      (alikeUpTo_fetchByte hE hpc hbuf hsame (alikeUpTo_proceed hE (hE.setPcNat _ (hE.setReg _ _ hsame))))
  | add a b d => exact alikeUpTo_arith hE hpc hbuf hsame _ d hreg
  | sub a b d => exact alikeUpTo_arith hE hpc hbuf hsame _ d hreg
  | mul a b d => exact alikeUpTo_arith hE hpc hbuf hsame _ d hreg
  | div a b d =>
    rw [exec_div, exec_div]
    exact alikeUpTo_fetchReg hE hpc hbuf hsame fun ha => alikeUpTo_fetchReg hE hpc hbuf hsame fun hb =>
      alikeUpTo_fetchReg hE hpc hbuf hsame fun _ =>
        alikeUpTo_divEffect hE hpc hsame _ (hreg a (by simp [reads]) ha) (hreg b (by simp [reads]) hb)
  | jmp t =>
    rw [exec_jmp, exec_jmp]
    exact alikeUpTo_jump hE hpc hbuf hsame (hreg t (by simp [reads])) fun _ =>
      alikeUpTo_proceed hE (hE.setPcNat _ hsame)
  | jmpf t =>
    rw [exec_jmpf, exec_jmpf, hpc]
    refine alikeUpTo_jump hE hpc hbuf hsame (hreg t (by simp [reads])) fun _ => ?_
    split_ifs
    · exact alikeUpTo_raise hE hpc hsame _ _
    · exact alikeUpTo_proceed hE (hE.setPcNat _ hsame)
  | jmpb t =>
    rw [exec_jmpb, exec_jmpb, hpc]
    refine alikeUpTo_jump hE hpc hbuf hsame (hreg t (by simp [reads])) fun _ => ?_
    split_ifs
    · exact alikeUpTo_raise hE hpc hsame _ _
    · exact alikeUpTo_proceed hE (hE.setPcNat _ hsame)
  | eq a b => exact alikeUpTo_compareRegs hE hpc hbuf hsame _ hreg
  | neq a b => exact alikeUpTo_compareRegs hE hpc hbuf hsame _ hreg
  | gt a b => exact alikeUpTo_compareRegs hE hpc hbuf hsame _ hreg
  | lt a b => exact alikeUpTo_compareRegs hE hpc hbuf hsame _ hreg
  | gtq a b => exact alikeUpTo_compareRegs hE hpc hbuf hsame _ hreg
  | ltq a b => exact alikeUpTo_compareRegs hE hpc hbuf hsame _ hreg
  | jeq t =>
    have hflag' : s'.flag = s.flag := hflag ⟨t, rfl⟩
    cases hf : s.flag with
    | true =>
      rw [exec_jeq_taken s t hf, exec_jeq_taken s' t (hflag'.trans hf)]
      exact alikeUpTo_jump hE hpc hbuf hsame (hreg t (by simp [reads, hf])) fun _ =>
        alikeUpTo_proceed hE (hE.setPcNat _ hsame)
    | false =>
      rw [exec_jeq_not_taken s t hf, exec_jeq_not_taken s' t (hflag'.trans hf), hpc]
      exact alikeUpTo_fetchReg hE hpc hbuf hsame fun _ => alikeUpTo_fetchByte hE hpc hbuf hsame
        (alikeUpTo_fetchByte hE hpc hbuf hsame (alikeUpTo_proceed hE (hE.setPcNat _ hsame)))

end

/-- Settles O20: the changed register is none that the instruction reads. -/
theorem unreadRegistersDoNotMatter : Obligations.UnreadRegistersDoNotMatter := by
  intro i s t r v hunread h
  have hreg : ∀ b ∈ reads s.flag i, ∀ hb : b.toNat < 32, (s.setReg r v).at b hb = s.at b hb := by
    intro b hmem hb
    have hne : (⟨b.toNat, hb⟩ : Reg) ≠ r := fun e => hunread b hmem (congrArg Fin.val e)
    exact (setReg_ival s r _ v).trans (if_neg hne)
  exact alikeUpTo_exec (forgets_reg r) (s := s) (s' := s.setReg r v) rfl rfl (setReg_setReg_same s r v 0) (fun _ => rfl)
    hreg t h

/-- A DIV that does not fault writes rem, so what it held before is lost. -/
theorem exec_div_setRem {a b d : Byte} (v : Word) (h : exec (.div a b d) s = .next t) (hrs : t.rs = .running) :
    exec (.div a b d) (s.setRem v) = .next t := by
  rcases fetchRRR_cases s a b d (divEffect s) with ⟨kind, info, e⟩ | ⟨hin, ha, hb, hd, -⟩
  · have hraise : raise s kind info = .next t := e.symm.trans h
    rw [← raise_eq_next.1 hraise] at hrs
    cases hrs
  · rw [exec_div_of_lt hin ha hb hd] at h
    rw [exec_div_of_lt (s := s.setRem v) hin ha hb hd]
    unfold divEffect at h
    split_ifs at h with hzero hover
    · rw [← raise_eq_next.1 h] at hrs; cases hrs
    · rw [← raise_eq_next.1 h] at hrs; cases hrs
    · rw [divEffect_of_clean (s := s.setRem v) _ hzero hover, ← h]
      rfl

/-- Settles O21: rem's frame, and rem as the part of the state that is forgotten. -/
theorem remIsWrittenByDivAndReadByNone : Obligations.RemIsWrittenByDivAndReadByNone := by
  refine ⟨fun i s t h hrem => ?_, fun i s t v h => ?_, fun a b d s t v => exec_div_setRem v, fun s => rfl, rfl⟩
  · by_contra hdiv
    exact hrem ((exec_keepsUnwritten h).rem fun a b d e => hdiv ⟨a, b, d, e⟩)
  · exact alikeUpTo_exec forgets_rem (s := s) (s' := s.setRem v) rfl rfl rfl (fun _ => rfl) (fun _ _ _ => rfl) t h

theorem mem_comparisons_of_isCompare {i : Instr} (h : isCompare i = true) :
    ∃ a b, i ∈ [Instr.eq a b, .neq a b, .gt a b, .lt a b, .gtq a b, .ltq a b] := by
  cases i with
  | eq a b => exact ⟨a, b, by simp⟩
  | neq a b => exact ⟨a, b, by simp⟩
  | gt a b => exact ⟨a, b, by simp⟩
  | lt a b => exact ⟨a, b, by simp⟩
  | gtq a b => exact ⟨a, b, by simp⟩
  | ltq a b => exact ⟨a, b, by simp⟩
  | _ => cases h

/-- A comparison that does not fault writes the flag, so what it held before is lost. -/
theorem exec_compare_setFlag {i : Instr} (hi : isCompare i = true) (f : Bool) (h : exec i s = .next t)
    (hrs : t.rs = .running) : exec i (s.setFlag f) = .next t := by
  obtain ⟨a, b, hmem⟩ := mem_comparisons_of_isCompare hi
  obtain ⟨rel, hexec⟩ := exists_rel_of_mem hmem
  rw [hexec, compareRegs] at h ⊢
  rcases fetchRRPad_cases s a b _ with ⟨kind, info, e⟩ | ⟨hin, ha, hb, e⟩ <;> rw [e] at h
  · rw [← raise_eq_next.1 h] at hrs; cases hrs
  · rw [fetchRRPad_of_lt (s := s.setFlag f) hin ha hb, ← h]
    rfl

/-- Settles O22: the flag's frame, the flag as the part of the state that is forgotten, and JEQ's two ways at reset. -/
theorem flagIsWrittenByComparisonsAndReadByJeq : Obligations.FlagIsWrittenByComparisonsAndReadByJeq := by
  refine ⟨fun i s t h hflag => ?_, fun i s t b hjeq h => ?_, fun i s t b hi => exec_compare_setFlag hi b,
    fun r s t h => (exec_keepsUnwritten h).flag rfl, fun s => rfl, rfl, fun r m hr hlen => ⟨?_, ?_⟩⟩
  · by_contra hcompare
    exact hflag ((exec_keepsUnwritten h).flag (Bool.eq_false_of_not_eq_true hcompare))
  · exact alikeUpTo_exec forgets_flag (s := s) (s' := s.setFlag b) rfl rfl rfl (fun ⟨r, e⟩ => absurd e (hjeq r))
      (fun _ _ _ => rfl) t h
  · exact continues_jeq_not_taken (s := State.reset.setBuf m) hr hlen (by decide : 4 < 2 ^ 32) rfl
  · have hpc : 1 < m.len := by omega
    exact continues_jeq_taken (s := (State.reset.setBuf m).setFlag true) hr (v := 0) hpc rfl
      (reset_ival ⟨r.toNat, hr⟩)

end Sys2Proof.Machine

/-! ### The invariant of the states the host can bring about (spec/40_step_cycle.md R51, R103) -/

namespace Sys2Proof.Machine

variable {s : State}

/-- Settles O39: reset has an empty buffer, no fault, and is itself. -/
theorem resetMeetsTheInvariant : Obligations.ResetMeetsTheInvariant :=
  ⟨reset_buf_wf, Nat.zero_le _, (fun _ hf => by cases hf), fun _ => rfl⟩

/-- An append keeps the invariant: the buffer grows within its capacity, and no other field is written. -/
theorem inv_appendByte (h : s.Inv) (b : Byte) : (appendByte b s).2.Inv := by
  unfold appendByte
  rcases Nat.lt_or_ge s.buf.len Config.bufCap with hroom | hfull
  · rw [appendByteCap_of_lt hroom]
    refine ⟨Memory.append_wf h.canonical b, hroom, fun f hf => ?_, fun hidle => ?_⟩
    · obtain ⟨hwf, hpc0, hin, hrs⟩ := h.latched f hf
      exact ⟨hwf, hpc0, Nat.lt_succ_of_lt hin, hrs⟩
    · exact congrArg (fun u => u.setBuf (s.buf.append b)) (h.idle hidle)
  · rw [appendByteCap_of_le hfull]
    exact h

/-- Settles O41: `inv_appendByte`, and `create` is reset. -/
theorem hostOperationsKeepTheInvariant : Obligations.HostOperationsKeepTheInvariant :=
  fun _ hinv => ⟨inv_appendByte hinv, resetMeetsTheInvariant⟩

/-- Settles O42, by induction on how the state was reached. -/
theorem reachableStatesMeetTheInvariant : Obligations.ReachableStatesMeetTheInvariant := by
  intro s hreach
  have hinv : s.Inv := by
    induction hreach with
    | reset => exact resetMeetsTheInvariant
    | create _ _ => exact resetMeetsTheInvariant
    | append b _ ih => exact inv_appendByte ih b
    | step _ hstep ih => exact stepKeepsTheInvariant _ _ ih hstep
  exact ⟨hinv, Nat.lt_of_le_of_lt hinv.capacity bufCap_bounds.2⟩

end Sys2Proof.Machine

/-! ### The buffer as a byte sequence (spec/20_memory.md R25, R26) -/

namespace Sys2Proof.Machine

variable {s : State}

/-- An append puts one byte at the end of the sequence. -/
theorem Memory.append_bytes {m : Memory} (h : m.wf = true) (b : Byte) : (m.append b).bytes = m.bytes ++ [b] := by
  refine List.ext_getElem? fun k => ?_
  rw [Memory.bytes_getElem?, List.getElem?_append, Memory.bytes_length, Memory.bytes_getElem?]
  split_ifs with hold
  · exact Memory.append_read_old m b hold
  · rcases Nat.eq_or_lt_of_le (Nat.not_lt.1 hold) with rfl | hbeyond
    · rw [Memory.append_read_new h, Nat.sub_self]
      rfl
    · rw [Memory.read_eq_none.2 hbeyond, List.getElem?_eq_none (by simp; omega)]

/-- Settles O43: an append to a full buffer is refused, and below capacity it is `Memory.append`. -/
theorem appendGrowsTheBufferByOneByte : Obligations.AppendGrowsTheBufferByOneByte := by
  intro cap b s
  refine ⟨fun hfull => appendByteCap_of_le hfull b, fun hwf hroom => ⟨_, appendByteCap_of_lt hroom b, ?_⟩⟩
  exact ⟨rfl, Memory.append_read_new hwf b, fun k => Memory.append_read_old s.buf b, Memory.append_bytes hwf b,
    Memory.append_wf hwf b⟩

/-- From the length up, a canonical list of cells gives every offset the byte 0. -/
theorem lookupCell_of_len_le {lo len k : Nat} {cs : List Host.Cell} (h : cellsWf lo len cs = true) (hk : len ≤ k) :
    lookupCell cs k = 0 := by
  induction cs generalizing lo with
  | nil => rfl
  | cons c rest ih =>
    obtain ⟨a, b⟩ := c
    simp only [cellsWf, Bool.and_eq_true, decide_eq_true_eq] at h
    obtain ⟨⟨⟨-, hlt⟩, -⟩, hrest⟩ := h
    rw [lookupCell, if_neg (by omega)]
    exact ih hrest

/-- Settles O44: equal sequences give every offset below the common length the same byte, and canonical cells give 0
from there up. -/
theorem canonicalBuffersAreByteSequences : Obligations.CanonicalBuffersAreByteSequences := by
  rintro ⟨len, cs⟩ ⟨len', ds⟩ hm hn hbytes
  obtain rfl : len = len' := by simpa only [Memory.bytes_length] using congrArg List.length hbytes
  have hread (k : Nat) : lookupCell cs k = lookupCell ds k := by
    rcases Nat.lt_or_ge k len with hin | hout
    · have hk : Memory.read ⟨len, cs⟩ k = Memory.read ⟨len, ds⟩ k := by
        rw [← Memory.bytes_getElem?, hbytes, Memory.bytes_getElem?]
      simpa only [Memory.read, if_pos hin, Option.some.injEq] using hk
    · rw [lookupCell_of_len_le hm hout, lookupCell_of_len_le hn hout]
  exact congrArg (Memory.mk len) (cells_ext hm hn hread)

/-- Appending a program that fits puts its bytes after those that stand there, and writes no other field. -/
theorem exists_appendAllCap {cap : Nat} (prog : List Byte) (hwf : s.buf.wf = true)
    (hfits : s.buf.len + prog.length ≤ cap) :
    ∃ m : Memory, appendAllCap cap prog s = s.setBuf m ∧ m.bytes = s.buf.bytes ++ prog ∧ m.wf = true := by
  induction prog generalizing s with
  | nil => exact ⟨s.buf, rfl, (List.append_nil _).symm, hwf⟩
  | cons b prog ih =>
    rw [List.length_cons] at hfits
    rw [appendAllCap, appendByteCap_of_lt (by omega)]
    obtain ⟨m, hm, hbytes, hmwf⟩ := ih (s := s.setBuf (s.buf.append b)) (Memory.append_wf hwf b)
      (by rw [setBuf_buf, Memory.append_len]; omega)
    refine ⟨m, hm, ?_, hmwf⟩
    rw [hbytes, setBuf_buf, Memory.append_bytes hwf, List.append_assoc, List.singleton_append]

/-- Settles O45: the appends from the empty buffer. -/
theorem loadingAProgramLeavesItsBytes : Obligations.LoadingAProgramLeavesItsBytes := by
  intro cap prog hfits
  exact exists_appendAllCap prog reset_buf_wf ((Nat.zero_add _).symm ▸ hfits)

end Sys2Proof.Machine

/-! ### Runs (spec/40_step_cycle.md R57, R59) -/

namespace Sys2Proof.Machine

variable {s t : State}

/-- A byte 0 at pc is a HLT: the step halts one byte further. -/
theorem step_of_zero_byte (hf : s.fault = none) (hread : s.buf.read s.pc.toNat = some 0) :
    step s = .next ((s.setPcNat (s.pc.toNat + 1)).setRs .halted) :=
  step_of_halting hf (Memory.read_lt hread) (.inl ((fetchInstr_eq_hlt_iff hread).2 rfl))

/-- Steps over zero bytes halt at each of them; only pc and rs are written. -/
theorem core_run_zero_bytes (n : Nat) (hf : s.fault = none) (hcap : s.buf.len < 2 ^ 32)
    (hread : ∀ j, j ≤ n → s.buf.read (s.pc.toNat + j) = some 0) :
    Host.Core.run core (n + 1) s = .next ((s.setPcNat (s.pc.toNat + (n + 1))).setRs .halted) := by
  induction n generalizing s with
  | zero => rw [core_run_of_next (step_of_zero_byte hf (hread 0 le_rfl)), core_run_zero]
  | succ n ih =>
    have hin := Memory.read_lt (hread 0 (Nat.zero_le _))
    have hpc : ((s.setPcNat (s.pc.toNat + 1)).setRs .halted).pc.toNat = s.pc.toNat + 1 :=
      setPcNat_pc_toNat (s := s) (by omega)
    have hrun := ih (s := (s.setPcNat (s.pc.toNat + 1)).setRs .halted) hf hcap fun j hj => by
      rw [hpc, Nat.add_right_comm]
      exact hread (j + 1) (by omega)
    rw [core_run_of_next (step_of_zero_byte hf (hread 0 (Nat.zero_le _))), hrun, hpc, Nat.add_right_comm]
    rfl

/-- Settles O48: the pads are zero bytes. -/
theorem steppingPastHltWalksItsPads : Obligations.SteppingPastHltWalksItsPads := by
  intro s hf hcap hread n hpos hmax
  obtain ⟨n, rfl⟩ := Nat.exists_eq_add_of_le' hpos
  have hin := Memory.read_lt (hread n (by omega))
  exact ⟨_, core_run_zero_bytes n hf hcap fun j hj => hread j (by omega), setPcNat_pc_toNat (s := s) (by omega),
    fun _ => rfl, rfl, rfl, hf, rfl⟩

theorem setPcNat_pc_self (s : State) : s.setPcNat s.pc.toNat = s := by
  rw [State.setPcNat, BitVec.ofNat_toNat, BitVec.setWidth_eq]
  rfl

/-- A JMP to its own offset is answered `Continued`, and changes rs only. -/
theorem hostStep_of_self_jump {r : Reg} (hf : s.fault = none) (h0 : s.buf.read s.pc.toNat = some 6)
    (h1 : s.buf.read (s.pc.toNat + 1) = some (.ofNat 8 r.val)) (hr : s.ival r = s.pc.toNat) :
    hostStep s = some (.continued, s.setRs .running) := by
  have hi : fetchInstr s = .jmp (.ofNat 8 r.val) := by
    rw [fetchInstr, lane_of_read (j := 0) h0, lane_of_read h1]
    rfl
  have hstep : step s = .next (s.setRs .running) := by
    rw [step_of_lt hf (Memory.read_lt h0), hi, exec_jmp, fetchReg_regByte (Memory.read_lt h1), jumpOperand_of_nat hr,
      setPcNat_pc_self]
    rfl
  have hanswer : stepResult s (s.setRs .running) = .continued := stepResult_of_running hf rfl
  rw [hostStep_of_next hstep, hanswer]

/-- Settles O49, by induction on the fuel: the state after the jump jumps to itself again. -/
theorem jumpToSelfNeverReturns : Obligations.JumpToSelfNeverReturns := by
  intro s r hf h0 h1 hr fuel
  induction fuel generalizing s with
  | zero => rfl
  | succ fuel ih =>
    rw [hostRun_of_continued (hostStep_of_self_jump hf h0 h1 hr)]
    exact ih (s.setRs .running) hf h0 h1 hr

/-- The host's answer to a step ends a run, or is `Continued`. -/
theorem hostStep_continued_or_halts (s : State) :
    (∃ u, hostStep s = some (.continued, u)) ∨ ∃ q u, q.halts = true ∧ hostStep s = some (q, u) := by
  obtain ⟨q, u, hstep⟩ := exists_hostStep s
  cases q with
  | continued => exact .inl ⟨u, hstep⟩
  | halted reason => exact .inr ⟨_, u, rfl, hstep⟩
  | fault kind info => exact .inr ⟨_, u, rfl, hstep⟩

theorem ne_continued_of_halts {q : StepResult} (h : q.halts = true) : q ≠ .continued := by
  rintro rfl
  cases h

/-- A run has returned within n + 1 steps exactly when its first step ends it or the n steps after that one do. -/
theorem hostRun_succ_eq_some_iff {n : Nat} {r : StepResult} :
    hostRun (n + 1) s = some (r, t) ↔
      (r ≠ .continued ∧ hostStep s = some (r, t)) ∨
        ∃ u, hostStep s = some (.continued, u) ∧ hostRun n u = some (r, t) := by
  rcases hostStep_continued_or_halts s with ⟨u, hstep⟩ | ⟨q, u, hq, hstep⟩
  · rw [hostRun_of_continued hstep, hstep]
    constructor
    · exact fun h => .inr ⟨u, rfl, h⟩
    · rintro (⟨hr, ⟨⟩⟩ | ⟨_, ⟨⟩, h⟩)
      · exact absurd rfl hr
      · exact h
  · rw [hostRun_of_halts hq hstep, hstep]
    constructor
    · rintro ⟨⟩
      exact .inl ⟨ne_continued_of_halts hq, rfl⟩
    · rintro (⟨-, h⟩ | ⟨_, ⟨⟩, -⟩)
      · exact h
      · cases hq

/-- A run returns within its fuel exactly when some fewer steps are continued and the next one ends it. -/
theorem hostRun_eq_some_iff {fuel : Nat} {r : StepResult} :
    hostRun fuel s = some (r, t) ↔
      r ≠ .continued ∧ ∃ n < fuel, ∃ u, ContinuedSteps n s u ∧ hostStep u = some (r, t) := by
  induction fuel generalizing s with
  | zero => exact ⟨nofun, fun ⟨_, _, hn, _⟩ => absurd hn (Nat.not_lt_zero _)⟩
  | succ fuel ih =>
    rw [hostRun_succ_eq_some_iff]
    constructor
    · rintro (⟨hr, hstop⟩ | ⟨v, hstep, hrun⟩)
      · exact ⟨hr, 0, Nat.succ_pos _, s, .zero s, hstop⟩
      · obtain ⟨hr, n, hn, u, hsteps, hstop⟩ := ih.1 hrun
        exact ⟨hr, n + 1, Nat.succ_lt_succ hn, u, .succ hstep hsteps, hstop⟩
    · rintro ⟨hr, n, hn, u, hsteps, hstop⟩
      cases hsteps with
      | zero => exact .inl ⟨hr, hstop⟩
      | succ hstep hsteps => exact .inr ⟨_, hstep, ih.2 ⟨hr, _, Nat.lt_of_succ_lt_succ hn, u, hsteps, hstop⟩⟩

/-- A run has not returned within its fuel exactly when that many steps are each answered `Continued`. -/
theorem hostRun_eq_none_iff {fuel : Nat} : hostRun fuel s = none ↔ ∃ u, ContinuedSteps fuel s u := by
  induction fuel generalizing s with
  | zero => exact ⟨fun _ => ⟨s, .zero s⟩, fun _ => rfl⟩
  | succ fuel ih =>
    simp only [continuedSteps_succ]
    rcases hostStep_continued_or_halts s with ⟨v, hstep⟩ | ⟨q, v, hq, hstep⟩
    · rw [hostRun_of_continued hstep, ih, hstep]
      constructor
      · exact fun ⟨u, hsteps⟩ => ⟨u, v, rfl, hsteps⟩
      · rintro ⟨u, _, ⟨⟩, hsteps⟩
        exact ⟨u, hsteps⟩
    · rw [hostRun_of_halts hq hstep, hstep]
      constructor
      · rintro ⟨⟩
      · rintro ⟨_, _, ⟨⟩, _⟩
        cases hq

/-- More fuel does not change the answer of a run that has returned. -/
theorem hostRun_mono {n m : Nat} {r : StepResult} (hnm : n ≤ m) (h : hostRun n s = some (r, t)) :
    hostRun m s = some (r, t) := by
  obtain ⟨hr, k, hk, hstop⟩ := hostRun_eq_some_iff.1 h
  exact hostRun_eq_some_iff.2 ⟨hr, k, Nat.lt_of_lt_of_le hk hnm, hstop⟩

/-- Settles O50: `hostRun` by its two answers, and `hostRun_mono` for any two bounds on the steps. -/
theorem runToHaltReturnsOneAnswer : Obligations.RunToHaltReturnsOneAnswer := by
  refine ⟨fun s r t => ⟨fun ⟨fuel, h⟩ => ?_, fun ⟨hr, n, u, hsteps, hstop⟩ => ?_⟩, fun s r r' t t' ⟨n, h⟩ ⟨m, h'⟩ => ?_,
    fun s => forall_congr' fun fuel => hostRun_eq_none_iff⟩
  · obtain ⟨hr, n, -, hend⟩ := hostRun_eq_some_iff.1 h
    exact ⟨hr, n, hend⟩
  · exact ⟨n + 1, hostRun_eq_some_iff.2 ⟨hr, n, Nat.lt_succ_self n, u, hsteps, hstop⟩⟩
  · have hboth := (hostRun_mono (Nat.le_max_right n m) h').symm.trans (hostRun_mono (Nat.le_max_left n m) h)
    cases hboth
    exact ⟨rfl, rfl⟩

end Sys2Proof.Machine

/-! ### The read accessors (spec/10_state.md R21) -/

namespace Sys2Proof.Machine

/-- Settles O51: each accessor reads its field; the buffer's is `Memory.read`, the byte sequence's entry. -/
theorem accessorsAreDefinedInsideTheirDomains : Obligations.AccessorsAreDefinedInsideTheirDomains := by
  intro s
  refine ⟨fun r => dif_pos r.isLt, fun i hi => dif_neg (Nat.not_lt.2 hi), fun k => (Memory.bytes_getElem? s.buf k).symm,
    fun k => Memory.exists_read, fun k => Memory.read_eq_none.2, (Memory.bytes_length s.buf).symm, rfl, rfl, rfl,
    rfl, rfl, ?_, ?_⟩
  · rw [haltedOut, readRs_eq, decide_eq_true_iff]
  · rw [faultedOut, readFault_eq, Option.isSome_iff_exists]

end Sys2Proof.Machine
